-- ==== Sys2Proof/Word.lean ====
section
/-! DEFINITION. The one word of this block: a byte (R12, R13). Lengths are plain natural numbers (R12). -/

namespace Sys2Proof

/-- `BYTE_W` = 8 (R12): a byte is a number 0..255, bit 7 the most significant (R13). -/
abbrev Byte := BitVec 8

end Sys2Proof
end

