-- ==== Sys2Proof/Config.lean ====
section
/-! DEFINITION. What is fixed beside the tokens, and the two free values of the model.
The tokens themselves stand in Machine/Tokens.lean. -/

namespace Sys2Proof.Config

/-- `MAX_PACKET_RECOMMENDED` (R11): informational; no rule reads it, and it is not the default of `dec.cap`. -/
def maxPacketRecommended : Nat := 1006

/-- The capacity bound of a decoder for which the host gives none (R9, R130): no bound. -/
def capDefault : Option Nat := none

/-- FREE VALUE (log entry 11). Whether the `n`-th `Emit` of encoder `h` fails, an `Emit` of no bytes included. R91: a write
of `Emit` "may fail as the sink chooses (a draw)". Read only where `SINK_FALLIBLE` is true. -/
opaque sinkFails : Nat → Nat → Bool

/-- FREE VALUE (log entry 11). How many bytes before its last one a failing `Emit` leaves written (U4): of a two-byte escape,
none or ESC alone. Read only where `sinkFails` says so. -/
opaque sinkWrites : Nat → Nat → Nat

end Sys2Proof.Config
end

