-- ==== Sys2Proof/Machine/Tokens.lean ====
section
/-! DEFINITION. The four protocol tokens (R8, R60), defined here only, so that a correction touches one line (U1). -/

namespace Sys2Proof.Token

/-- Frame delimiter. -/
abbrev END : Byte := 0xC0#8

/-- Escape introducer. -/
abbrev ESC : Byte := 0xDB#8

/-- Escaped END: the code that stands for 0xC0. -/
abbrev ESC_END : Byte := 0xDC#8

/-- Escaped ESC: the code that stands for 0xDB. -/
abbrev ESC_ESC : Byte := 0xDD#8

end Sys2Proof.Token
end

