-- ==== Sys2Proof/Syntax.lean ====
section
/-! DEFINITION. Events, formats and the instructions: one constructor of `Instr` for each row of
spec/opcode_table.json (R66). An instruction is an event together with the row its context's control
state selects for it (R19, R65). -/

namespace Sys2Proof

/-- The decoder's parse state (R21); it selects how a byte is read (R65). -/
inductive ParseState where
  | normal
  | escaping
  | errorRecovery
  deriving DecidableEq, Repr

/-- How the host names a context: the number of contexts of its kind constructed before it (log entry 2). -/
abbrev Handle := Nat

/-- A context as `DROP` names it (R134): a decoder or an encoder. -/
inductive Ctx where
  | dec (h : Handle)
  | enc (h : Handle)
  deriving DecidableEq, Repr

/-- The formats of R62. -/
inductive Format where
  | byte
  | encData
  | encCtl
  | host
  deriving DecidableEq, Repr

/-- One input event: what the host issues (R16, R62, R186). The numeric content of an event is at most the
one byte `b[7:0]` of the formats BYTE and ENC_DATA; the rest is named, not encoded (R62). -/
inductive Event where
  | byte (h : Handle) (b : Byte)
  | start (h : Handle)
  | data (h : Handle) (b : Byte)
  | finish (h : Handle)
  | decNew (cap : Option Nat)
  | encNew (lead : Bool)
  | decReset (h : Handle)
  | encReset (h : Handle)
  | drop (c : Ctx)
  deriving DecidableEq, Repr

/-- The instructions, one for each row of the opcode table, in its order. -/
inductive Instr where
  | decNEndF (h : Handle)
  | decNEndE (h : Handle)
  | decNEsc (h : Handle)
  | decNLit (h : Handle) (b : Byte)
  | decEEscEnd (h : Handle)
  | decEEscEsc (h : Handle)
  | decEBad (h : Handle) (b : Byte)
  | decREnd (h : Handle)
  | decRSkip (h : Handle) (b : Byte)
  | encStart (h : Handle)
  | encDataEnd (h : Handle)
  | encDataEsc (h : Handle)
  | encDataLit (h : Handle) (b : Byte)
  | encFinish (h : Handle)
  | decNew (cap : Option Nat)
  | encNew (lead : Bool)
  | decReset (h : Handle)
  | encReset (h : Handle)
  | drop (c : Ctx)
  deriving DecidableEq, Repr

end Sys2Proof
end

