-- ==== Sys2Proof/WellFormed.lean ====
section
/-! DEFINITION. What makes an instruction well formed: a default row holds none of the byte values its
`excludes` list names (R66, R73). Every other instruction is well formed: `cap` may be any natural number or
none (R9), and a payload byte may have any value (R67). -/

namespace Sys2Proof

/-- The byte of a default row is none of the values the row excludes (R73). -/
def Instr.wf : Instr → Bool
  | .decNLit _ b => b != Token.END && b != Token.ESC
  | .decEBad _ b => b != Token.ESC_END && b != Token.ESC_ESC
  | .decRSkip _ b => b != Token.END
  | .encDataLit _ b => b != Token.END && b != Token.ESC
  | .decNEndF _ | .decNEndE _ | .decNEsc _ | .decEEscEnd _ | .decEEscEsc _ | .decREnd _
  | .encStart _ | .encDataEnd _ | .encDataEsc _ | .encFinish _
  | .decNew _ | .encNew _ | .decReset _ | .encReset _ | .drop _ => true

end Sys2Proof
end

