-- ==== Sys2Proof/Decode.lean ====
section
/-! DEFINITION. The decoder of events into instructions, the encoder back, and the opcode table as data.
Decoding is total: in every parse state every byte has exactly one row (R66, R123), every encoder and host
event is one row, and there is no reserved encoding (R69), so nothing is rejected here. An encoder event that
comes out of order has its row and is refused by that row's meaning (R88). -/

namespace Sys2Proof

/-- What the decoder context shows to the reading of a byte (R65, R66): its parse state, and whether its
buffer is empty, which tells DEC.N.END.F from DEC.N.END.E. -/
structure View where
  state : ParseState
  bufEmpty : Bool
  deriving DecidableEq, Repr

/-- The view of a fresh decoder (R34). -/
def View.fresh : View := { state := .normal, bufEmpty := true }

/-- The five byte classes (R61). -/
inductive ByteClass where
  | cEnd
  | cEsc
  | cEscEnd
  | cEscEsc
  | cOther
  deriving DecidableEq, Repr

/-- The class of a byte, all eight bits compared (R61). -/
def byteClass (b : Byte) : ByteClass :=
  if b = Token.END then .cEnd
  else if b = Token.ESC then .cEsc
  else if b = Token.ESC_END then .cEscEnd
  else if b = Token.ESC_ESC then .cEscEsc
  else .cOther

/-- The decoder rows of the opcode map (R66): parse state and byte class select the row. -/
def decodeByte (v : View) (h : Handle) (b : Byte) : Instr :=
  match v.state with
  | .normal =>
    match byteClass b with
    | .cEnd => if v.bufEmpty then .decNEndE h else .decNEndF h
    | .cEsc => .decNEsc h
    | .cEscEnd | .cEscEsc | .cOther => .decNLit h b
  | .escaping =>
    match byteClass b with
    | .cEscEnd => .decEEscEnd h
    | .cEscEsc => .decEEscEsc h
    | .cEnd | .cEsc | .cOther => .decEBad h b
  | .errorRecovery =>
    match byteClass b with
    | .cEnd => .decREnd h
    | .cEsc | .cEscEnd | .cEscEsc | .cOther => .decRSkip h b

/-- The encoder's DATA rows (R66): the encoder tells END, ESC and any other byte apart (R61). -/
def decodeData (h : Handle) (b : Byte) : Instr :=
  match byteClass b with
  | .cEnd => .encDataEnd h
  | .cEsc => .encDataEsc h
  | .cEscEnd | .cEscEsc | .cOther => .encDataLit h b

/-- The row of an event, given the view of the decoder a byte is presented to (R65, R66). The view plays no part in
the reading of an encoder or host event. -/
def decode (v : View) : Event → Instr
  | .byte h b => decodeByte v h b
  | .start h => .encStart h
  | .data h b => decodeData h b
  | .finish h => .encFinish h
  | .decNew cap => .decNew cap
  | .encNew lead => .encNew lead
  | .decReset h => .decReset h
  | .encReset h => .encReset h
  | .drop c => .drop c

/-- The event an instruction is the reading of (R60, R66). -/
def encode : Instr → Event
  | .decNEndF h => .byte h Token.END
  | .decNEndE h => .byte h Token.END
  | .decNEsc h => .byte h Token.ESC
  | .decNLit h b => .byte h b
  | .decEEscEnd h => .byte h Token.ESC_END
  | .decEEscEsc h => .byte h Token.ESC_ESC
  | .decEBad h b => .byte h b
  | .decREnd h => .byte h Token.END
  | .decRSkip h b => .byte h b
  | .encStart h => .start h
  | .encDataEnd h => .data h Token.END
  | .encDataEsc h => .data h Token.ESC
  | .encDataLit h b => .data h b
  | .encFinish h => .finish h
  | .decNew cap => .decNew cap
  | .encNew lead => .encNew lead
  | .decReset h => .decReset h
  | .encReset h => .encReset h
  | .drop c => .drop c

/-- Whether a decoder with view `v` is in the state, and meets the condition, under which the opcode map lists the
instruction (R66). An encoder or host row asks nothing of a decoder. -/
def View.selects (v : View) : Instr → Bool
  | .decNEndF _ => v.state == .normal && !v.bufEmpty
  | .decNEndE _ => v.state == .normal && v.bufEmpty
  | .decNEsc _ | .decNLit _ _ => v.state == .normal
  | .decEEscEnd _ | .decEEscEsc _ | .decEBad _ _ => v.state == .escaping
  | .decREnd _ | .decRSkip _ _ => v.state == .errorRecovery
  | .encStart _ | .encDataEnd _ | .encDataEsc _ | .encDataLit _ _ | .encFinish _
  | .decNew _ | .encNew _ | .decReset _ | .encReset _ | .drop _ => true

/-- The context an event acts on, or none for a construction (R130 to R134, R160). -/
def Event.target : Event → Option Ctx
  | .byte h _ => some (.dec h)
  | .start h => some (.enc h)
  | .data h _ => some (.enc h)
  | .finish h => some (.enc h)
  | .decReset h => some (.dec h)
  | .encReset h => some (.enc h)
  | .drop c => some c
  | .decNew _ => none
  | .encNew _ => none

/-! ### The opcode table as data (R66, R73) -/

/-- The format of an event (R62). -/
def Event.format : Event → Format
  | .byte _ _ => .byte
  | .data _ _ => .encData
  | .start _ | .finish _ => .encCtl
  | .decNew _ | .encNew _ | .decReset _ | .encReset _ | .drop _ => .host

/-- The byte field `b[7:0]` of an event, where its format has one (R62). -/
def Event.byteField : Event → Option Byte
  | .byte _ b => some b
  | .data _ b => some b
  | .start _ | .finish _ | .decNew _ | .encNew _ | .decReset _ | .encReset _ | .drop _ => none

/-- The rows' names, in the table's order; `LAWS.json` gives each its spelling. -/
inductive RowName where
  | decNEndF | decNEndE | decNEsc | decNLit
  | decEEscEnd | decEEscEsc | decEBad
  | decREnd | decRSkip
  | encStart | encDataEnd | encDataEsc | encDataLit | encFinish
  | decNew | encNew | decReset | encReset | drop
  deriving DecidableEq, Repr

/-- One row of spec/opcode_table.json (R73): `pattern` is its `match`; `state` is the parse state of a decoder row, and
`bufEmpty` the condition of the two DEC.N.END rows. -/
structure Row where
  name : RowName
  format : Format
  pattern : Byte
  mask : Byte
  state : Option ParseState
  bufEmpty : Option Bool
  excludes : List Byte
  deriving DecidableEq, Repr

/-- The nine decoder rows (R66). -/
def decoderRows : List Row :=
  [ ⟨.decNEndF, .byte, 0xC0#8, 0xFF#8, some .normal, some false, []⟩,
    ⟨.decNEndE, .byte, 0xC0#8, 0xFF#8, some .normal, some true, []⟩,
    ⟨.decNEsc, .byte, 0xDB#8, 0xFF#8, some .normal, none, []⟩,
    ⟨.decNLit, .byte, 0x00#8, 0x00#8, some .normal, none, [0xC0#8, 0xDB#8]⟩,
    ⟨.decEEscEnd, .byte, 0xDC#8, 0xFF#8, some .escaping, none, []⟩,
    ⟨.decEEscEsc, .byte, 0xDD#8, 0xFF#8, some .escaping, none, []⟩,
    ⟨.decEBad, .byte, 0x00#8, 0x00#8, some .escaping, none, [0xDC#8, 0xDD#8]⟩,
    ⟨.decREnd, .byte, 0xC0#8, 0xFF#8, some .errorRecovery, none, []⟩,
    ⟨.decRSkip, .byte, 0x00#8, 0x00#8, some .errorRecovery, none, [0xC0#8]⟩ ]

/-- The five encoder rows (R66). -/
def encoderRows : List Row :=
  [ ⟨.encStart, .encCtl, 0x00#8, 0x00#8, none, none, []⟩,
    ⟨.encDataEnd, .encData, 0xC0#8, 0xFF#8, none, none, []⟩,
    ⟨.encDataEsc, .encData, 0xDB#8, 0xFF#8, none, none, []⟩,
    ⟨.encDataLit, .encData, 0x00#8, 0x00#8, none, none, [0xC0#8, 0xDB#8]⟩,
    ⟨.encFinish, .encCtl, 0x00#8, 0x00#8, none, none, []⟩ ]

/-- The five host rows (R66). -/
def hostRows : List Row :=
  [ ⟨.decNew, .host, 0x00#8, 0x00#8, none, none, []⟩,
    ⟨.encNew, .host, 0x00#8, 0x00#8, none, none, []⟩,
    ⟨.decReset, .host, 0x00#8, 0x00#8, none, none, []⟩,
    ⟨.encReset, .host, 0x00#8, 0x00#8, none, none, []⟩,
    ⟨.drop, .host, 0x00#8, 0x00#8, none, none, []⟩ ]

/-- All nineteen rows. -/
def opcodeTable : List Row := decoderRows ++ encoderRows ++ hostRows

/-- The row an instruction stands for. -/
def Instr.rowName : Instr → RowName
  | .decNEndF _ => .decNEndF
  | .decNEndE _ => .decNEndE
  | .decNEsc _ => .decNEsc
  | .decNLit _ _ => .decNLit
  | .decEEscEnd _ => .decEEscEnd
  | .decEEscEsc _ => .decEEscEsc
  | .decEBad _ _ => .decEBad
  | .decREnd _ => .decREnd
  | .decRSkip _ _ => .decRSkip
  | .encStart _ => .encStart
  | .encDataEnd _ => .encDataEnd
  | .encDataEsc _ => .encDataEsc
  | .encDataLit _ _ => .encDataLit
  | .encFinish _ => .encFinish
  | .decNew _ => .decNew
  | .encNew _ => .encNew
  | .decReset _ => .decReset
  | .encReset _ => .encReset
  | .drop _ => .drop

/-- A row's byte pattern fits `b`: `(b & mask) = match`, and `b` is no excluded value (R73). -/
def Row.fits (r : Row) (b : Byte) : Bool :=
  (b &&& r.mask) == r.pattern && !r.excludes.contains b

/-- A decoder row is listed for the state of `v` and its further condition holds (R73). -/
def Row.listedFor (r : Row) (v : View) : Bool :=
  r.state == some v.state && (r.bufEmpty == none || r.bufEmpty == some v.bufEmpty)

/-- R73: the decoder "written from the table alone": find the rows of the current state; try the 0xFF rows; else
take the default row. -/
def tableRow (v : View) (b : Byte) : Option RowName :=
  let rows := decoderRows.filter (fun r => r.listedFor v)
  match rows.find? (fun r => r.mask == 0xFF#8 && r.fits b) with
  | some r => some r.name
  | none => (rows.find? (fun r => r.mask == 0x00#8)).map (·.name)

/-! ### Words for the host's question about the table -/

/-- The view under which the table word `b` is read (log entry 17): the two codes are read in `Escaping`, where the
table fixes them, every other byte by a fresh decoder. -/
def tableView (b : Byte) : View :=
  match byteClass b with
  | .cEscEnd | .cEscEsc => { state := .escaping, bufEmpty := true }
  | .cEnd | .cEsc | .cOther => View.fresh

/-- The instruction read from the eight bits of a byte row, presented to decoder 0 under `tableView`. The table
gives bits to byte events only; a word of another width is no event (R62). -/
def decodeTableWord (nbits w : Nat) : Option Instr :=
  if nbits = 8 ∧ w < 256 then
    some (decode (tableView (BitVec.ofNat 8 w)) (.byte 0 (BitVec.ofNat 8 w)))
  else none

end Sys2Proof
end

