-- ==== Sys2Proof/Machine/State.lean ====
section
/-! DEFINITION. The state: the contexts the spec gives (R20, R24, R25, R160), each in the port at which the host
drives it, the host's pending events, and the one open parameter of the block (R12). All plain data. -/

namespace Sys2Proof.Machine

/-- The two protocol errors (R140); they carry no code and no payload (R145). -/
inductive DecError where
  | framingError
  | oversizedPacket
  deriving DecidableEq, Repr

/-- The outcome of a decoder step (R15). `noFrame` is the spec's `None`. -/
inductive DecOutcome where
  | noFrame
  | frame (f : List Byte)
  | err (e : DecError)
  deriving DecidableEq, Repr

/-- The outcome of an encoder step: the bytes it emitted (R15); `errIo` is `Err(Io)` with the bytes of the failed
write that were written, and arises only where `SINK_FALLIBLE` is true (R91). -/
inductive EncOutcome where
  | emitted (bytes : List Byte)
  | errIo (written : List Byte)
  deriving DecidableEq, Repr

/-- A decoder context: exactly three things (R20 to R23). -/
structure Decoder where
  state : ParseState
  buf : List Byte
  cap : Option Nat
  deriving DecidableEq, Repr

/-- The encoder's control state (R25). -/
inductive Phase where
  | idle
  | inFrame
  deriving DecidableEq, Repr

/-- An encoder context (R24, R25). -/
structure Encoder where
  lead : Bool
  phase : Phase
  deriving DecidableEq, Repr

/-- A decoder at the host: the context, absent once it is dropped (R134), and the outcomes it handed over, one for
each byte presented, in step order (R15, R17; log entry 5). -/
structure DecPort where
  ctx : Option Decoder
  outs : List DecOutcome
  deriving DecidableEq, Repr

/-- An encoder at the host: the context, absent once it is dropped (R134), its output stream (R46), the outcomes of its
steps (R15; log entry 5), and the model's own counter of the draws its sink has made (log entry 11). -/
structure EncPort where
  ctx : Option Encoder
  tx : List Byte
  outs : List EncOutcome
  draws : Nat
  deriving DecidableEq, Repr

/-- The whole machine. A context's handle is its index (log entry 2); `input` holds the host's pending events, the next
one first (log entry 3); `sinkFallible` is `SINK_FALLIBLE` (R12; log entry 10). -/
structure State where
  decs : List DecPort
  encs : List EncPort
  input : List Event
  sinkFallible : Bool
  deriving DecidableEq, Repr

/-- After reset: no context has been constructed (R170, R172; log entry 6), no event is pending, and the sink never
fails (R12). A context's own initial values are those of R34, set by DEC.NEW and ENC.NEW. -/
def State.reset : State :=
  { decs := [], encs := [], input := [], sinkFallible := false }

/-- No event stops the block with a fault: its errors are outcomes (R144) and it has no terminal state (R123), so there
is no constructor and nothing raises one (log entry 19). -/
inductive Fault where
  deriving DecidableEq, Repr

/-- Why an event has no step. -/
inductive Refusal where
  /-- Raised only by an arm of `exec` for an instruction without a meaning; no arm is left so. Safe. -/
  | notModelled (mnemonic : String)
  /-- Raised by START outside `Idle` and by DATA and FINISH outside `InFrame` (R88). Safe: nothing is claimed of what
  the spec gives no meaning. -/
  | encoderEventOrder
  /-- Raised by every event that names a context that was never constructed or was dropped (R134, D25; log entry 8).
  Safe. -/
  | noSuchContext
  /-- Raised by `exec` on a row that the context's state or the byte does not select; `step` never asks for one (log
  entry 7). Safe. -/
  | rowNotSelected
  deriving DecidableEq, Repr

/-- The answer of a step of this machine. -/
abbrev Answer := Host.Outcome State Fault Refusal

end Sys2Proof.Machine
end

