-- ==== Sys2Proof/Machine/Flags.lean ====
section
/-! DEFINITION. The conditions the decoder tests. No flag persists (R28): each is computed from the state at the time of
the test. -/

namespace Sys2Proof.Machine

/-- The test `dec.buf = []` of R101 and R102. -/
def Decoder.bufEmpty (d : Decoder) : Bool := d.buf.isEmpty

/-- `BufFull()` (R41): a bound is set and the length equals it. -/
def Decoder.bufFull (d : Decoder) : Bool :=
  match d.cap with
  | none => false
  | some c => d.buf.length == c

/-- What the decoder shows to the reading of a byte (R65). -/
def Decoder.view (d : Decoder) : View := { state := d.state, bufEmpty := d.bufEmpty }

end Sys2Proof.Machine
end

