-- ==== Sys2Proof/Machine/Operands.lean ====
section
/-! DEFINITION. Operand assembly (R64, R85): every operand is a whole byte; nothing is extended, scaled or shifted. -/

namespace Sys2Proof.Machine

/-- `Unescape` (R64): the payload byte a code stands for; no value for any other byte. -/
def unescape (b : Byte) : Option Byte :=
  if b = Token.ESC_END then some Token.END
  else if b = Token.ESC_ESC then some Token.ESC
  else none

/-- `EncByte` (R85): the wire bytes that stand for a payload byte. -/
def encByte (b : Byte) : List Byte :=
  if b = Token.END then [Token.ESC, Token.ESC_END]
  else if b = Token.ESC then [Token.ESC, Token.ESC_ESC]
  else [b]

/-- The leading delimiter a frame starts with (R80). -/
def leadBytes (lead : Bool) : List Byte := if lead then [Token.END] else []

end Sys2Proof.Machine
end

