-- ==== Sys2Proof/Machine/Ops.lean ====
section
/-! DEFINITION. The operations every meaning is made of: the buffer primitives, raising an error and returning from
recovery, the sink, and one step of a decoder row and of an encoder row. -/

namespace Sys2Proof.Machine

/-! ### The accumulation buffer (R41 to R43) -/

/-- `BufAppend(v)` (R42); its callers have tested `BufFull()`. -/
def bufAppend (d : Decoder) (v : Byte) : Decoder := { d with buf := d.buf ++ [v] }

/-- `BufClear()` (R43). -/
def bufClear (d : Decoder) : Decoder := { d with buf := [] }

/-- `BufTake()` (R43): the whole content, and the decoder with its buffer emptied. -/
def bufTake (d : Decoder) : List Byte × Decoder := (d.buf, bufClear d)

/-! ### Errors: entry into recovery, and the return -/

/-- Raising an error, the block's exception entry (R144, R147, R148): the decoder enters `ErrorRecovery`, its buffer stays
as garbage, nothing is saved, and the error is the step's outcome. -/
def raiseError (d : Decoder) (e : DecError) : Decoder × DecOutcome :=
  ({ d with state := .errorRecovery }, .err e)

/-- The return from recovery (R108, R150): the garbage is discarded and the decoder is as fresh. -/
def recover (d : Decoder) : Decoder × DecOutcome :=
  ({ bufClear d with state := .normal }, .noFrame)

/-- `TryAppend(v)` of R100. -/
def tryAppend (d : Decoder) (v : Byte) : Decoder × DecOutcome :=
  if d.bufFull then raiseError d .oversizedPacket
  else ({ bufAppend d v with state := .normal }, .noFrame)

/-- A delimiter that completes a frame (R101). -/
def deliver (d : Decoder) : Decoder × DecOutcome :=
  let taken := bufTake d
  ({ taken.2 with state := .normal }, .frame taken.1)

/-! ### Contexts at the host -/

/-- The decoder a handle names, if it exists. -/
def State.dec? (s : State) (h : Handle) : Option Decoder := s.decs[h]?.bind (·.ctx)

/-- The encoder a handle names, if it exists. -/
def State.enc? (s : State) (h : Handle) : Option Encoder := s.encs[h]?.bind (·.ctx)

/-- The outcomes decoder `h` has handed over. -/
def State.decOuts (s : State) (h : Handle) : List DecOutcome := ((s.decs[h]?).map (·.outs)).getD []

/-- The outcomes of the steps of encoder `h`. -/
def State.encOuts (s : State) (h : Handle) : List EncOutcome := ((s.encs[h]?).map (·.outs)).getD []

/-- The output stream of encoder `h` (R46). -/
def State.tx (s : State) (h : Handle) : List Byte := ((s.encs[h]?).map (·.tx)).getD []

/-- Changes the port of decoder `h`. -/
def State.updDec (s : State) (h : Handle) (f : DecPort → DecPort) : State :=
  { s with decs := s.decs.modify h f }

/-- Changes the port of encoder `h`. -/
def State.updEnc (s : State) (h : Handle) (f : EncPort → EncPort) : State :=
  { s with encs := s.encs.modify h f }

/-- A step of a decoder: its new context, and the outcome handed to the host (R15). -/
def State.decStepped (s : State) (h : Handle) (r : Decoder × DecOutcome) : State :=
  s.updDec h (fun p => { ctx := some r.1, outs := p.outs ++ [r.2] })

/-! ### The sink (R46, R91) -/

/-- `Emit(bytes)` in a step that leaves the encoder in `ph`. The sink of the core always accepts (R46). Where
`SINK_FALLIBLE` is true the sink draws whether it fails (R91; log entry 11): if so, some of the bytes before the last one
stay written (U4), the outcome is `Err(Io)`, and the phase returns to `Idle`. -/
def EncPort.emit (p : EncPort) (fallible : Bool) (h : Handle) (e : Encoder) (bytes : List Byte) (ph : Phase) : EncPort :=
  if fallible then
    if Config.sinkFails h p.draws then
      let w := bytes.dropLast.take (Config.sinkWrites h p.draws)
      { ctx := some { e with phase := .idle }, tx := p.tx ++ w, outs := p.outs ++ [.errIo w], draws := p.draws + 1 }
    else
      { ctx := some { e with phase := ph }, tx := p.tx ++ bytes, outs := p.outs ++ [.emitted bytes], draws := p.draws + 1 }
  else
    { p with ctx := some { e with phase := ph }, tx := p.tx ++ bytes, outs := p.outs ++ [.emitted bytes] }

/-! ### One step of a row -/

/-- A step of a decoder row `i` on decoder `h`, whose transition is `tr`. The context must exist (R134) and the row must be
the one its state and the byte select (R66). -/
def decRow (i : Instr) (h : Handle) (tr : Decoder → Decoder × DecOutcome) (s : State) : Answer :=
  match s.dec? h with
  | none => .refused .noSuchContext
  | some d =>
    if i.wf && d.view.selects i then .next (s.decStepped h (tr d))
    else .refused .rowNotSelected

/-- A step of an encoder row `i` on encoder `h`: in phase `pre` it emits `bytes` and goes to `post`; in the other phase it
is refused (R88). -/
def encRow (i : Instr) (h : Handle) (pre : Phase) (bytes : Encoder → List Byte) (post : Phase) (s : State) : Answer :=
  match s.enc? h with
  | none => .refused .noSuchContext
  | some e =>
    if !i.wf then .refused .rowNotSelected
    else if e.phase = pre then .next (s.updEnc h (fun p => p.emit s.sinkFallible h e (bytes e) post))
    else .refused .encoderEventOrder

end Sys2Proof.Machine
end

