-- ==== Sys2Proof/Machine/DecoderRows.lean ====
section
/-! DEFINITION. The nine transitions of the decoder (R101 to R109). -/

namespace Sys2Proof.Machine

/-- DEC.N.END.F (R101): a delimiter that completes a frame. -/
def execDecNEndF (h : Handle) (s : State) : Answer :=
  decRow (.decNEndF h) h deliver s

/-- DEC.N.END.E (R102): a delimiter with nothing accumulated; nothing changes. -/
def execDecNEndE (h : Handle) (s : State) : Answer :=
  decRow (.decNEndE h) h (fun d => (d, .noFrame)) s

/-- DEC.N.ESC (R103): the escape introducer; no capacity test. -/
def execDecNEsc (h : Handle) (s : State) : Answer :=
  decRow (.decNEsc h) h (fun d => ({ d with state := .escaping }, .noFrame)) s

/-- DEC.N.LIT (R104): a literal byte. -/
def execDecNLit (h : Handle) (b : Byte) (s : State) : Answer :=
  decRow (.decNLit h b) h (fun d => tryAppend d b) s

/-- DEC.E.ESCEND (R105): the code for a literal END. -/
def execDecEEscEnd (h : Handle) (s : State) : Answer :=
  decRow (.decEEscEnd h) h (fun d => tryAppend d Token.END) s

/-- DEC.E.ESCESC (R106): the code for a literal ESC. -/
def execDecEEscEsc (h : Handle) (s : State) : Answer :=
  decRow (.decEEscEsc h) h (fun d => tryAppend d Token.ESC) s

/-- DEC.E.BAD (R107): a protocol violation; no capacity test (R146). -/
def execDecEBad (h : Handle) (b : Byte) (s : State) : Answer :=
  decRow (.decEBad h b) h (fun d => raiseError d .framingError) s

/-- DEC.R.END (R108): the delimiter that ends recovery. -/
def execDecREnd (h : Handle) (s : State) : Answer :=
  decRow (.decREnd h) h recover s

/-- DEC.R.SKIP (R109): a byte discarded during recovery; nothing changes. -/
def execDecRSkip (h : Handle) (b : Byte) (s : State) : Answer :=
  decRow (.decRSkip h b) h (fun d => (d, .noFrame)) s

end Sys2Proof.Machine
end

