-- ==== Sys2Proof/Machine/EncoderRows.lean ====
section
/-! DEFINITION. The five events of the encoder (R80 to R84). -/

namespace Sys2Proof.Machine

/-- ENC.START (R80): begin a frame. -/
def execEncStart (h : Handle) (s : State) : Answer :=
  encRow (.encStart h) h .idle (fun e => leadBytes e.lead) .inFrame s

/-- ENC.DATA.END (R81): a payload byte equal to END. -/
def execEncDataEnd (h : Handle) (s : State) : Answer :=
  encRow (.encDataEnd h) h .inFrame (fun _ => [Token.ESC, Token.ESC_END]) .inFrame s

/-- ENC.DATA.ESC (R82): a payload byte equal to ESC. -/
def execEncDataEsc (h : Handle) (s : State) : Answer :=
  encRow (.encDataEsc h) h .inFrame (fun _ => [Token.ESC, Token.ESC_ESC]) .inFrame s

/-- ENC.DATA.LIT (R83): any other payload byte, emitted unchanged. -/
def execEncDataLit (h : Handle) (b : Byte) (s : State) : Answer :=
  encRow (.encDataLit h b) h .inFrame (fun _ => [b]) .inFrame s

/-- ENC.FINISH (R84): end the frame. -/
def execEncFinish (h : Handle) (s : State) : Answer :=
  encRow (.encFinish h) h .inFrame (fun _ => [Token.END]) .idle s

end Sys2Proof.Machine
end

