-- ==== Sys2Proof/Machine/HostOps.lean ====
section
/-! DEFINITION. The host's operations: construct, reset, drop (R130 to R134). None has an outcome. -/

namespace Sys2Proof.Machine

/-- A fresh decoder with bound `cap` (R34, R130). -/
def freshDecoder (cap : Option Nat) : Decoder := { state := .normal, buf := [], cap := cap }

/-- A fresh encoder (R34, R131). -/
def freshEncoder (lead : Bool) : Encoder := { lead := lead, phase := .idle }

/-- DEC.NEW(cap) (R130): a new decoder, independent of every other; its handle is the next one (log entry 2). -/
def execDecNew (cap : Option Nat) (s : State) : Answer :=
  .next { s with decs := s.decs ++ [{ ctx := some (freshDecoder cap), outs := [] }] }

/-- ENC.NEW(lead) (R131): a new encoder; its handle is the next one (log entry 2). -/
def execEncNew (lead : Bool) (s : State) : Answer :=
  .next { s with encs := s.encs ++ [{ ctx := some (freshEncoder lead), tx := [], outs := [], draws := 0 }] }

/-- DEC.RESET (R132): the construction state again, `dec.cap` kept; nothing is delivered. -/
def execDecReset (h : Handle) (s : State) : Answer :=
  match s.dec? h with
  | none => .refused .noSuchContext
  | some d => .next (s.updDec h (fun p => { p with ctx := some (freshDecoder d.cap) }))

/-- ENC.RESET (R133): `Idle` again, `enc.lead` and `tx` kept; nothing is emitted. -/
def execEncReset (h : Handle) (s : State) : Answer :=
  match s.enc? h with
  | none => .refused .noSuchContext
  | some e => .next (s.updEnc h (fun p => { p with ctx := some (freshEncoder e.lead) }))

/-- DROP(ctx) (R134): the context ceases to exist; what it had handed over or emitted stays with the host. -/
def execDrop (c : Ctx) (s : State) : Answer :=
  match c with
  | .dec h =>
    match s.dec? h with
    | none => .refused .noSuchContext
    | some _ => .next (s.updDec h (fun p => { p with ctx := none }))
  | .enc h =>
    match s.enc? h with
    | none => .refused .noSuchContext
    | some _ => .next (s.updEnc h (fun p => { p with ctx := none }))

end Sys2Proof.Machine
end

