-- ==== Sys2Proof/Machine/Dispatch.lean ====
section
/-! DEFINITION. One arm for each row of the opcode table (R66). -/

namespace Sys2Proof.Machine

def exec (i : Instr) (s : State) : Host.Outcome State Fault Refusal :=
  match i with
  | .decNEndF h => Sys2Proof.Machine.execDecNEndF h s
  | .decNEndE h => Sys2Proof.Machine.execDecNEndE h s
  | .decNEsc h => Sys2Proof.Machine.execDecNEsc h s
  | .decNLit h b => Sys2Proof.Machine.execDecNLit h b s
  | .decEEscEnd h => Sys2Proof.Machine.execDecEEscEnd h s
  | .decEEscEsc h => Sys2Proof.Machine.execDecEEscEsc h s
  | .decEBad h b => Sys2Proof.Machine.execDecEBad h b s
  | .decREnd h => Sys2Proof.Machine.execDecREnd h s
  | .decRSkip h b => Sys2Proof.Machine.execDecRSkip h b s
  | .encStart h => Sys2Proof.Machine.execEncStart h s
  | .encDataEnd h => Sys2Proof.Machine.execEncDataEnd h s
  | .encDataEsc h => Sys2Proof.Machine.execEncDataEsc h s
  | .encDataLit h b => Sys2Proof.Machine.execEncDataLit h b s
  | .encFinish h => Sys2Proof.Machine.execEncFinish h s
  | .decNew cap => Sys2Proof.Machine.execDecNew cap s
  | .encNew lead => Sys2Proof.Machine.execEncNew lead s
  | .decReset h => Sys2Proof.Machine.execDecReset h s
  | .encReset h => Sys2Proof.Machine.execEncReset h s
  | .drop c => Sys2Proof.Machine.execDrop c s

end Sys2Proof.Machine
end

