-- ==== Sys2Proof/Machine/Fetch.lean ====
section
/-! DEFINITION. Taking the host's next event (R44, R51), and placing one for the host's question about the table. -/

namespace Sys2Proof.Machine

/-- The next pending event, and the machine once the host has issued it (R51; log entry 3). -/
def State.fetch (s : State) : Option (Event × State) :=
  match s.input with
  | [] => none
  | e :: rest => some (e, { s with input := rest })

/-- The view under which an event is read (R65): that of the decoder the byte is presented to. Where no such decoder
exists the row read is refused by its meaning (R134), so the view does not matter. -/
def State.viewFor (s : State) (e : Event) : View :=
  match e with
  | .byte h _ => ((s.dec? h).map Decoder.view).getD View.fresh
  | .start _ | .data _ _ | .finish _ | .decNew _ | .encNew _ | .decReset _ | .encReset _ | .drop _ => View.fresh

/-- Puts a decoder with parse state `st` and an empty buffer, without a bound, at handle 0. -/
def State.loadDecoder (s : State) (st : ParseState) : State :=
  let d : Decoder := { freshDecoder Config.capDefault with state := st }
  match s.decs with
  | [] => { s with decs := [{ ctx := some d, outs := [] }] }
  | p :: rest => { s with decs := { p with ctx := some d } :: rest }

/-- Puts an event before every pending one. -/
def State.pushEvent (s : State) (e : Event) : State := { s with input := e :: s.input }

/-- What `State.withFetchWord` does (log entry 17): a decoder in the parse state in which the table word is read, and
the event the word is. A word that is no byte event places nothing. -/
def State.placeWord (s : State) (nbits w : Nat) : State :=
  match decodeTableWord nbits w with
  | none => s
  | some i => (s.loadDecoder (tableView (BitVec.ofNat 8 w)).state).pushEvent (encode i)

end Sys2Proof.Machine
end

