-- ==== Sys2Proof/Machine/Step.lean ====
section
/-! DEFINITION. One step: the host's next event is read by its context and executed (R16, R51). -/

namespace Sys2Proof.Machine

/-- One step of the machine. With no event pending nothing happens (R153, R187; log entry 4). -/
def step (s : State) : Host.Outcome State Fault Refusal :=
  match s.fetch with
  | none => .next s
  | some (e, s') => exec (decode (s.viewFor e) e) s'

/-- The machine with a table word placed as the next event (log entry 17). -/
def State.withFetchWord (s : State) (nbits w : Nat) : State := s.placeWord nbits w

end Sys2Proof.Machine
end

