-- ==== Sys2Proof/Machine/Composite.lean ====
section
/-! DEFINITION. The composites of R72 over one context, and the wire format: the decoder's step function (R100),
`Decode` (R110), `DecodeAll` (R111), `Encode` (R86), and the grammar of R63. They are expansions into the primitive
events, not instructions of their own (log entry 18). -/

namespace Sys2Proof.Machine

/-! ### The decoder -/

/-- `DecStep(b)` (R100): total on every byte in every state. -/
def decStep (d : Decoder) (b : Byte) : Decoder × DecOutcome :=
  match d.state with
  | .normal =>
    if b = Token.END then
      if d.buf ≠ [] then
        let taken := bufTake d
        ({ taken.2 with state := .normal }, .frame taken.1)
      else ({ d with state := .normal }, .noFrame)
    else if b = Token.ESC then ({ d with state := .escaping }, .noFrame)
    else tryAppend d b
  | .escaping =>
    if b = Token.ESC_END then tryAppend d Token.END
    else if b = Token.ESC_ESC then tryAppend d Token.ESC
    else ({ d with state := .errorRecovery }, .err .framingError)
  | .errorRecovery =>
    if b = Token.END then ({ bufClear d with state := .normal }, .noFrame)
    else (d, .noFrame)

/-- The steps of a whole byte sequence: every outcome, `None` included, in order, and the decoder after. -/
def decRun : List Byte → Decoder → List DecOutcome × Decoder
  | [], d => ([], d)
  | b :: bs, d => ((decStep d b).2 :: (decRun bs (decStep d b).1).1, (decRun bs (decStep d b).1).2)

/-- What a `Decode` call returns (R110): its outcome and the number of bytes consumed; and the decoder after. -/
structure CallResult where
  outcome : DecOutcome
  consumed : Nat
  dec : Decoder
  deriving DecidableEq, Repr

/-- `Decode(chunk)` (R110): byte steps up to and including the first whose outcome is a frame or an error. -/
def decodeCall : List Byte → Decoder → CallResult
  | [], d => { outcome := .noFrame, consumed := 0, dec := d }
  | b :: bs, d =>
    if (decStep d b).2 = .noFrame then
      let c := decodeCall bs (decStep d b).1
      { c with consumed := c.consumed + 1 }
    else { outcome := (decStep d b).2, consumed := 1, dec := (decStep d b).1 }

/-- The loop of `DecodeAll` (R111), with at most `fuel` calls. -/
def decodeLoop : Nat → List Byte → Decoder → List DecOutcome × Decoder
  | 0, _, d => ([], d)
  | _ + 1, [], d => ([], d)
  | fuel + 1, b :: bs, d =>
    let c := decodeCall (b :: bs) d
    let more := decodeLoop fuel ((b :: bs).drop c.consumed) c.dec
    if c.outcome = .noFrame then more else (c.outcome :: more.1, more.2)

/-- `DecodeAll(bytes)` (R111). Every call consumes at least one byte, so the sequence's length bounds the calls. -/
def decodeAll (bytes : List Byte) (d : Decoder) : List DecOutcome × Decoder :=
  decodeLoop bytes.length bytes d

/-- `DecodeAll` on chunk after chunk, the decoder carried from one to the next (R113, R118). -/
def decodeChunks : List (List Byte) → Decoder → List DecOutcome × Decoder
  | [], d => ([], d)
  | c :: cs, d =>
    ((decodeAll c d).1 ++ (decodeChunks cs (decodeAll c d).2).1, (decodeChunks cs (decodeAll c d).2).2)

/-- The outcomes that are not `None` (R111). -/
def reports (outs : List DecOutcome) : List DecOutcome := outs.filter (fun o => o != .noFrame)

/-- The frame of an outcome, if it is one. -/
def DecOutcome.frame? : DecOutcome → Option (List Byte)
  | .frame f => some f
  | .noFrame | .err _ => none

/-- Whether an outcome is an error. -/
def DecOutcome.isErr : DecOutcome → Bool
  | .err _ => true
  | .noFrame | .frame _ => false

/-- `Frames(outs)` (R111): the source's `decode_all` is `Frames(DecodeAll(..))`. -/
def frames (outs : List DecOutcome) : List (List Byte) := outs.filterMap DecOutcome.frame?

/-- The frames and errors of a list of step outcomes, each with the index of the byte that produced it (R17). -/
def taggedReports (outs : List DecOutcome) : List (DecOutcome × Nat) :=
  outs.zipIdx.filter (fun o => o.1 != .noFrame)

/-! ### The encoder -/

/-- `Encode(lead, f)` (R86): what encoding one frame appends to `tx`. -/
def encodeFrame (lead : Bool) (f : List Byte) : List Byte :=
  leadBytes lead ++ f.flatMap encByte ++ [Token.END]

/-- The wire bytes of several frames, each with its own flag, with nothing between them (R90, R124). -/
def encodeFrames (fs : List (Bool × List Byte)) : List Byte := fs.flatMap (fun x => encodeFrame x.1 x.2)

/-! ### The wire format (R63) -/

/-- `stuffed-body` of R63: no END; every ESC has its code right after it. -/
def stuffedBody : List Byte → Bool
  | [] => true
  | [b] => b != Token.END && b != Token.ESC
  | b :: c :: rest =>
    if b = Token.ESC then (c == Token.ESC_END || c == Token.ESC_ESC) && stuffedBody rest
    else b != Token.END && stuffedBody (c :: rest)

/-- `wire-frame` of R63. -/
def WireFrame (lead : Bool) (w : List Byte) : Prop :=
  ∃ body, w = leadBytes lead ++ body ++ [Token.END] ∧ stuffedBody body = true

/-- Every ESC of a stream has its code right after it; delimiters may stand anywhere else (R89 c over a whole stream). -/
def escPaired : List Byte → Bool
  | [] => true
  | [b] => b != Token.ESC
  | b :: c :: rest =>
    if b = Token.ESC then (c == Token.ESC_END || c == Token.ESC_ESC) && escPaired rest
    else escPaired (c :: rest)

/-! ### Events of a composite (R72) -/

/-- The events of `Encode(f)` on encoder `h` (R86). -/
def encodeEvents (h : Handle) (f : List Byte) : List Event :=
  .start h :: (f.map (Event.data h) ++ [.finish h])

/-- The events of presenting bytes to decoder `h` one by one (R110). -/
def byteEvents (h : Handle) (bytes : List Byte) : List Event := bytes.map (Event.byte h)

end Sys2Proof.Machine
end

