-- ==== Sys2Proof/Machine/Run.lean ====
section
/-! DEFINITION. Runs of the machine, and the host's calls `Decode` and `Encode` as the machine carries them out (R72,
R186). -/

namespace Sys2Proof.Machine

/-- `k` steps, up to the first refusal. -/
def steps : Nat → State → Answer
  | 0, s => .next s
  | k + 1, s =>
    match step s with
    | .next t => steps k t
    | .fault r => .fault r
    | .refused r => .refused r

/-- The context an event names reads and executes it, before anything that is pending (R16, R186). -/
def react (s : State) (e : Event) : Answer := exec (decode (s.viewFor e) e) s

/-- The outcome of the latest step of decoder `h`. -/
def State.lastOutcome (s : State) (h : Handle) : DecOutcome := (s.decOuts h).getLast?.getD .noFrame

/-- The call `Decode(chunk)` on decoder `h` (R110): its outcome, the count of consumed bytes, and the machine after; no
value where a byte is refused. -/
def callDecode (h : Handle) : List Byte → State → Option ((DecOutcome × Nat) × State)
  | [], s => some ((.noFrame, 0), s)
  | b :: bs, s =>
    match react s (.byte h b) with
    | .next t =>
      if t.lastOutcome h = .noFrame then
        (callDecode h bs t).map (fun r => ((r.1.1, r.1.2 + 1), r.2))
      else some ((t.lastOutcome h, 1), t)
    | .fault _ => none
    | .refused _ => none

/-- The outcome of the latest step of encoder `h`. -/
def State.lastEncOutcome (s : State) (h : Handle) : EncOutcome := (s.encOuts h).getLast?.getD (.emitted [])

/-- The outcome of a call whose earlier events wrote `ws`, from that of its later events. -/
def EncOutcome.prepend (ws : List Byte) : EncOutcome → EncOutcome
  | .emitted bytes => .emitted (ws ++ bytes)
  | .errIo bytes => .errIo (ws ++ bytes)

/-- The events of an `Encode` in progress on encoder `h`, issued one after another, before anything that is pending. A
write that fails ends it with `Err(Io)`: the events after it are not issued, so the rest of the frame is neither written
nor retried (R91; log entry 22). The outcome holds all the bytes that the call wrote; no value where an event is refused. -/
def issueEncode (h : Handle) : List Event → State → Option (EncOutcome × State)
  | [], s => some (.emitted [], s)
  | e :: es, s =>
    match react s e with
    | .next t =>
      match t.lastEncOutcome h with
      | .emitted ws => (issueEncode h es t).map (fun r => (r.1.prepend ws, r.2))
      | .errIo ws => some (.errIo ws, t)
    | .fault _ => none
    | .refused _ => none

/-- The call `Encode(f)` on encoder `h` (R86, R91): its outcome, the wire bytes or `Err(Io)`, and the machine after. -/
def callEncode (h : Handle) (f : List Byte) (s : State) : Option (EncOutcome × State) :=
  issueEncode h (encodeEvents h f) s

/-- Encoding frames in turn on encoder `h` (R90): the outcome of each call, and the machine after. -/
def callEncodes (h : Handle) : List (List Byte) → State → Option (List EncOutcome × State)
  | [], s => some ([], s)
  | f :: fs, s =>
    match callEncode h f s with
    | some (o, t) => (callEncodes h fs t).map (fun r => (o :: r.1, r.2))
    | none => none

end Sys2Proof.Machine
end

