-- ==== Sys2Proof/Safety.lean ====
section
/-! DEFINITION. What claims are made in: the invariants of the machine, what a step of one context leaves alone, and a
safe run. -/

namespace Sys2Proof.Machine

/-! ### Invariants -/

/-- The capacity invariant of one decoder (R29). -/
def Decoder.bounded (d : Decoder) : Bool :=
  match d.cap with
  | none => true
  | some c => decide (d.buf.length ≤ c)

/-- A delivered frame is not empty (R115) and not longer than the bound (R120). -/
def DecOutcome.okFor (cap : Option Nat) : DecOutcome → Bool
  | .frame f =>
    f != [] &&
      (match cap with
      | none => true
      | some c => decide (f.length ≤ c))
  | .noFrame | .err _ => true

/-- A decoder at the host: its buffer respects its bound, and so do the frames it has delivered (R29, R120). -/
def DecPort.ok (p : DecPort) : Bool :=
  match p.ctx with
  | none => p.outs.all (DecOutcome.okFor none)
  | some d => d.bounded && p.outs.all (DecOutcome.okFor d.cap)

/-- The bytes an encoder step wrote. -/
def EncOutcome.written : EncOutcome → List Byte
  | .emitted bytes => bytes
  | .errIo bytes => bytes

/-- R51 (b): `tx` is the concatenation, in event order, of what each step wrote. -/
def EncPort.ok (p : EncPort) : Bool := p.tx == p.outs.flatMap EncOutcome.written

/-- The invariant of the whole machine. -/
abbrev State.Inv (s : State) : Prop :=
  (s.decs.all DecPort.ok && s.encs.all EncPort.ok) = true

/-- Every ESC on every output stream has its code (R89 c, for streams of whole steps). -/
abbrev State.StreamsPaired (s : State) : Prop :=
  (s.encs.all (fun p => escPaired p.tx)) = true

/-! ### Frames of a step: what it leaves alone -/

/-- Nothing but decoder port `h` differs. -/
structure OnlyDec (h : Handle) (s t : State) : Prop where
  encs : t.encs = s.encs
  input : t.input = s.input
  sink : t.sinkFallible = s.sinkFallible
  count : t.decs.length = s.decs.length
  others : ∀ k, k ≠ h → t.decs[k]? = s.decs[k]?

/-- Nothing but encoder port `h` differs. -/
structure OnlyEnc (h : Handle) (s t : State) : Prop where
  decs : t.decs = s.decs
  input : t.input = s.input
  sink : t.sinkFallible = s.sinkFallible
  count : t.encs.length = s.encs.length
  others : ∀ k, k ≠ h → t.encs[k]? = s.encs[k]?

/-- Decoder `h` took a step to `d` with outcome `o`, and nothing else changed. -/
def DecStepped (h : Handle) (s t : State) (d : Decoder) (o : DecOutcome) : Prop :=
  t.decs[h]? = some { ctx := some d, outs := s.decOuts h ++ [o] } ∧ OnlyDec h s t

/-- Encoder `h` took a step to `e` that emitted `bytes` on a sink that accepted them without a draw, and nothing else
changed. -/
def EncStepped (h : Handle) (s t : State) (e : Encoder) (bytes : List Byte) : Prop :=
  (∃ p, s.encs[h]? = some p ∧
    t.encs[h]? = some { ctx := some e, tx := p.tx ++ bytes, outs := p.outs ++ [.emitted bytes], draws := p.draws }) ∧
  OnlyEnc h s t

/-- Encoder `h` took a step that was to emit `bytes` and go to phase `ph`, on a sink that may fail (R91, U4): either all of them
were written and the step is as with a sink that accepts, or some leading part `w` of those before the last one was written,
the outcome is `Err(Io)` and the phase `Idle`. Nothing else changed but the count of draws. -/
def EncDrawn (h : Handle) (s t : State) (e : Encoder) (bytes : List Byte) (ph : Phase) : Prop :=
  (∃ p, s.encs[h]? = some p ∧
    (t.encs[h]? = some { ctx := some { e with phase := ph }, tx := p.tx ++ bytes, outs := p.outs ++ [.emitted bytes],
                         draws := p.draws + 1 } ∨
     ∃ w, w <+: bytes.dropLast ∧
      t.encs[h]? = some { ctx := some { e with phase := .idle }, tx := p.tx ++ w, outs := p.outs ++ [.errIo w],
                          draws := p.draws + 1 })) ∧
  OnlyEnc h s t

/-- Presented to decoder `h`, the byte `b` is read as row `i` (its encoding), and executing `i` takes the decoder to `d` with
outcome `o` and changes nothing else. -/
def RowStep (s : State) (h : Handle) (b : Byte) (i : Instr) (d : Decoder) (o : DecOutcome) : Prop :=
  decode (s.viewFor (.byte h b)) (.byte h b) = i ∧ ∃ t, exec i s = .next t ∧ DecStepped h s t d o

/-- A frame of length `n` fits the bound `cap` (R116, R124). -/
def FitsBound (cap : Option Nat) (n : Nat) : Prop := ∀ c, cap = some c → n ≤ c

/-- How often a byte sequence takes the decoder into `ErrorRecovery` (R121). -/
def recoveryEntries : List Byte → Decoder → Nat
  | [], _ => 0
  | b :: bs, d =>
    (if d.state ≠ .errorRecovery ∧ (decStep d b).1.state = .errorRecovery then 1 else 0) + recoveryEntries bs (decStep d b).1

/-- The reports a decoder in `Normal` with an empty buffer owes for frames sent one after another (R124): each frame that is
not empty, in order. -/
def owedReports (fs : List (Bool × List Byte)) : List DecOutcome :=
  (fs.filter (fun x => x.2 != [])).map (fun x => .frame x.2)

/-! ### Safe runs -/

/-- An answer that is no stop. -/
def isNext : Answer → Bool
  | .next _ => true
  | .fault _ => false
  | .refused _ => false

/-- The first `k` steps from `s` meet no refusal. -/
def SafeFor (k : Nat) (s : State) : Prop := isNext (steps k s) = true

end Sys2Proof.Machine
end

