-- ==== Sys2Proof/Certificates/Slice0/Obligations.lean ====
section
/-! DEFINITION. The statements for the provers. Byte values are written out from the spec, so that a statement does not lean
on the model's own tokens. `DecStepped`, `EncStepped`, `OnlyDec` and `OnlyEnc` (Safety.lean) say in full what a step
leaves alone. -/

open Sys2Proof Sys2Proof.Machine

/-! ### The step, and the reading of events -/

/-- R51, R16: a step takes the host's next event, the context it names reads it, and the row read is executed with the rest
still pending; a byte is read under the parse state of its decoder, and whether its buffer is empty. With nothing pending the
step changes nothing (the model's choice, log entry 4). -/
def Obligations.StepRunsTheNextEvent : Prop :=
  (∀ (s : State) (e : Event) (rest : List Event) (i : Instr),
    s.input = e :: rest → decode (s.viewFor e) e = i → i.wf = true → step s = exec i { s with input := rest }) ∧
  (∀ (s : State) (h : Handle) (b : Byte) (d : Decoder),
    s.dec? h = some d → s.viewFor (.byte h b) = { state := d.state, bufEmpty := d.buf.isEmpty }) ∧
  (∀ s : State, s.input = [] → step s = .next s)

/-- R66: every well-formed instruction, in every view that selects it, is what the decoder reads from its own event. -/
def Obligations.DecodeOfEncodeIsTheInstruction : Prop :=
  ∀ (v : View) (i : Instr), i.wf = true → v.selects i = true → decode v (encode i) = i

/-- R66, R123: reading is total and drops nothing: every event in every view is read as a well-formed instruction which that
view selects and which encodes to the event. -/
def Obligations.EncodeOfDecodeIsTheEvent : Prop :=
  ∀ (v : View) (e : Event),
    (decode v e).wf = true ∧ v.selects (decode v e) = true ∧ encode (decode v e) = e

/-- R73: the decoder written from the table alone (find the rows of the current state, try the 0xFF rows, else the default
row) names the row that the decoder reads, for every view and every byte. -/
def Obligations.ByteRowsFollowTheTable : Prop :=
  ∀ (v : View) (h : Handle) (b : Byte), tableRow v b = some (decodeByte v h b).rowName

/-- R60, R65: a few words written out bit by bit. -/
def Obligations.SampleWordsAreReadRight : Prop :=
  decode View.fresh (.byte 0 0b11000000#8) = .decNEndE 0 ∧
  decode { state := .normal, bufEmpty := false } (.byte 0 0b11000000#8) = .decNEndF 0 ∧
  decode View.fresh (.byte 0 0b11011011#8) = .decNEsc 0 ∧
  decode View.fresh (.byte 0 0b11011100#8) = .decNLit 0 0b11011100#8 ∧
  decode { state := .escaping, bufEmpty := true } (.byte 0 0b11011100#8) = .decEEscEnd 0 ∧
  decode { state := .escaping, bufEmpty := true } (.byte 0 0b11011101#8) = .decEEscEsc 0 ∧
  decode { state := .escaping, bufEmpty := true } (.byte 0 0b11000000#8) = .decEBad 0 0b11000000#8 ∧
  decode { state := .errorRecovery, bufEmpty := true } (.byte 0 0b11000000#8) = .decREnd 0 ∧
  decode { state := .errorRecovery, bufEmpty := true } (.byte 0 0b11011011#8) = .decRSkip 0 0b11011011#8 ∧
  decode View.fresh (.data 0 0b11000000#8) = .encDataEnd 0 ∧
  decode View.fresh (.data 0 0b11011011#8) = .encDataEsc 0 ∧
  decode View.fresh (.data 0 0b11011101#8) = .encDataLit 0 0b11011101#8

/-! ### The decoder's rows: encoding, effect, outcome and frame -/

/-- R101: END in `Normal` with bytes accumulated delivers them as a frame and empties the buffer. -/
def Obligations.EndDeliversTheFrame : Prop :=
  ∀ (s : State) (h : Handle) (d : Decoder), s.dec? h = some d → d.state = .normal → d.buf ≠ [] →
    RowStep s h 0xC0#8 (.decNEndF h) { state := .normal, buf := [], cap := d.cap } (.frame d.buf)

/-- R102: END in `Normal` with an empty buffer changes nothing and has outcome `None`. -/
def Obligations.EndWithEmptyBufferIsIgnored : Prop :=
  ∀ (s : State) (h : Handle) (d : Decoder), s.dec? h = some d → d.state = .normal → d.buf = [] →
    RowStep s h 0xC0#8 (.decNEndE h) d .noFrame

/-- R103: ESC in `Normal` begins an escape sequence, whatever the buffer holds; nothing is tested or appended. -/
def Obligations.EscBeginsAnEscape : Prop :=
  ∀ (s : State) (h : Handle) (d : Decoder), s.dec? h = some d → d.state = .normal →
    RowStep s h 0xDB#8 (.decNEsc h) { state := .escaping, buf := d.buf, cap := d.cap } .noFrame

/-- R104: any other byte in `Normal` is appended, or, where the bound is reached, dropped with `OversizedPacket`. -/
def Obligations.LiteralIsAppendedOrOversized : Prop :=
  ∀ (s : State) (h : Handle) (d : Decoder) (b : Byte), s.dec? h = some d → d.state = .normal → b ≠ 0xC0#8 → b ≠ 0xDB#8 →
    (d.cap ≠ some d.buf.length →
      RowStep s h b (.decNLit h b) { state := .normal, buf := d.buf ++ [b], cap := d.cap } .noFrame) ∧
    (d.cap = some d.buf.length →
      RowStep s h b (.decNLit h b) { state := .errorRecovery, buf := d.buf, cap := d.cap } (.err .oversizedPacket))

/-- R105: ESC_END in `Escaping` appends 0xC0, or, where the bound is reached, is dropped with `OversizedPacket`. -/
def Obligations.EscEndAppendsEnd : Prop :=
  ∀ (s : State) (h : Handle) (d : Decoder), s.dec? h = some d → d.state = .escaping →
    (d.cap ≠ some d.buf.length →
      RowStep s h 0xDC#8 (.decEEscEnd h) { state := .normal, buf := d.buf ++ [0xC0#8], cap := d.cap } .noFrame) ∧
    (d.cap = some d.buf.length →
      RowStep s h 0xDC#8 (.decEEscEnd h) { state := .errorRecovery, buf := d.buf, cap := d.cap } (.err .oversizedPacket))

/-- R106: ESC_ESC in `Escaping` appends 0xDB, or, where the bound is reached, is dropped with `OversizedPacket`. -/
def Obligations.EscEscAppendsEsc : Prop :=
  ∀ (s : State) (h : Handle) (d : Decoder), s.dec? h = some d → d.state = .escaping →
    (d.cap ≠ some d.buf.length →
      RowStep s h 0xDD#8 (.decEEscEsc h) { state := .normal, buf := d.buf ++ [0xDB#8], cap := d.cap } .noFrame) ∧
    (d.cap = some d.buf.length →
      RowStep s h 0xDD#8 (.decEEscEsc h) { state := .errorRecovery, buf := d.buf, cap := d.cap } (.err .oversizedPacket))

/-- R107: any other byte in `Escaping`, END and ESC among them, is dropped with `FramingError`, whatever the bound. -/
def Obligations.BadCodeRaisesFramingError : Prop :=
  ∀ (s : State) (h : Handle) (d : Decoder) (b : Byte), s.dec? h = some d → d.state = .escaping → b ≠ 0xDC#8 → b ≠ 0xDD#8 →
    RowStep s h b (.decEBad h b) { state := .errorRecovery, buf := d.buf, cap := d.cap } (.err .framingError)

/-- R108: END in `ErrorRecovery` clears the garbage and resumes; nothing is delivered. -/
def Obligations.EndLeavesRecovery : Prop :=
  ∀ (s : State) (h : Handle) (d : Decoder), s.dec? h = some d → d.state = .errorRecovery →
    RowStep s h 0xC0#8 (.decREnd h) { state := .normal, buf := [], cap := d.cap } .noFrame

/-- R109: any other byte in `ErrorRecovery` changes nothing and has outcome `None`. -/
def Obligations.RecoverySkipsOtherBytes : Prop :=
  ∀ (s : State) (h : Handle) (d : Decoder) (b : Byte), s.dec? h = some d → d.state = .errorRecovery → b ≠ 0xC0#8 →
    RowStep s h b (.decRSkip h b) d .noFrame

/-! ### The encoder's events: encoding, emission, phase and frame, on the core's sink -/

/-- R80: START in `Idle` emits the leading END if the flag says so, and enters the frame; elsewhere it is refused. -/
def Obligations.StartEmitsTheLead : Prop :=
  ∀ (s : State) (h : Handle) (e : Encoder), s.enc? h = some e → s.sinkFallible = false →
    (∀ v, decode v (.start h) = .encStart h) ∧
    (e.phase = .idle → ∃ t, exec (.encStart h) s = .next t ∧
      EncStepped h s t { lead := e.lead, phase := .inFrame } (if e.lead then [0xC0#8] else [])) ∧
    (e.phase = .inFrame → exec (.encStart h) s = .refused .encoderEventOrder)

/-- R81: a payload byte 0xC0 is emitted as 0xDB, 0xDC. -/
def Obligations.DataEndIsEscaped : Prop :=
  ∀ (s : State) (h : Handle) (e : Encoder), s.enc? h = some e → s.sinkFallible = false →
    (∀ v, decode v (.data h 0xC0#8) = .encDataEnd h) ∧
    (e.phase = .inFrame → ∃ t, exec (.encDataEnd h) s = .next t ∧ EncStepped h s t e [0xDB#8, 0xDC#8]) ∧
    (e.phase = .idle → exec (.encDataEnd h) s = .refused .encoderEventOrder)

/-- R82: a payload byte 0xDB is emitted as 0xDB, 0xDD. -/
def Obligations.DataEscIsEscaped : Prop :=
  ∀ (s : State) (h : Handle) (e : Encoder), s.enc? h = some e → s.sinkFallible = false →
    (∀ v, decode v (.data h 0xDB#8) = .encDataEsc h) ∧
    (e.phase = .inFrame → ∃ t, exec (.encDataEsc h) s = .next t ∧ EncStepped h s t e [0xDB#8, 0xDD#8]) ∧
    (e.phase = .idle → exec (.encDataEsc h) s = .refused .encoderEventOrder)

/-- R83: any other payload byte is emitted unchanged. -/
def Obligations.DataLiteralIsEmittedUnchanged : Prop :=
  ∀ (s : State) (h : Handle) (e : Encoder) (b : Byte), s.enc? h = some e → s.sinkFallible = false →
    b ≠ 0xC0#8 → b ≠ 0xDB#8 →
    (∀ v, decode v (.data h b) = .encDataLit h b) ∧
    (e.phase = .inFrame → ∃ t, exec (.encDataLit h b) s = .next t ∧ EncStepped h s t e [b]) ∧
    (e.phase = .idle → exec (.encDataLit h b) s = .refused .encoderEventOrder)

/-- R84: FINISH emits the trailing END, whatever the flag, and leaves the frame. -/
def Obligations.FinishEmitsTheTrailingEnd : Prop :=
  ∀ (s : State) (h : Handle) (e : Encoder), s.enc? h = some e → s.sinkFallible = false →
    (∀ v, decode v (.finish h) = .encFinish h) ∧
    (e.phase = .inFrame → ∃ t, exec (.encFinish h) s = .next t ∧
      EncStepped h s t { lead := e.lead, phase := .idle } [0xC0#8]) ∧
    (e.phase = .idle → exec (.encFinish h) s = .refused .encoderEventOrder)

/-- R88 and log entry 9: in `Idle` an encoder accepts START, which puts it into the frame, and no other event of a frame; in `InFrame` it
accepts DATA, which leaves it there, and FINISH, which returns it, and no START; ENC.RESET and DROP are accepted in both. What
does not fit is refused (R88), and the refusal marks the run: no number of further steps gets past it. That the run is that of
the whole machine, the pending events of every other context included, is the model's choice (log entry 9). -/
def Obligations.EncoderEventsKeepTheirOrder : Prop :=
  ∀ (s : State) (h : Handle) (e : Encoder) (b : Byte) (k : Nat) (rest : List Event), s.enc? h = some e →
    (∃ t, react s (.encReset h) = .next t ∧ t.enc? h = some { lead := e.lead, phase := .idle }) ∧
    (∃ t, react s (.drop (.enc h)) = .next t ∧ t.enc? h = none) ∧
    (e.phase = .idle →
      (s.sinkFallible = false → ∃ t, react s (.start h) = .next t ∧ t.enc? h = some { lead := e.lead, phase := .inFrame }) ∧
      react s (.data h b) = .refused .encoderEventOrder ∧
      react s (.finish h) = .refused .encoderEventOrder ∧
      steps (k + 1) { s with input := .data h b :: rest } = .refused .encoderEventOrder ∧
      steps (k + 1) { s with input := .finish h :: rest } = .refused .encoderEventOrder) ∧
    (e.phase = .inFrame →
      (s.sinkFallible = false → ∃ t, react s (.data h b) = .next t ∧ t.enc? h = some { lead := e.lead, phase := .inFrame }) ∧
      (s.sinkFallible = false → ∃ t, react s (.finish h) = .next t ∧ t.enc? h = some { lead := e.lead, phase := .idle }) ∧
      react s (.start h) = .refused .encoderEventOrder ∧
      steps (k + 1) { s with input := .start h :: rest } = .refused .encoderEventOrder)

/-- R91, U4: on a sink that may fail, each encoder event in its phase either does what it does on a sink that accepts, or
leaves some leading part of its bytes before the last one written, with outcome `Err(Io)` and phase `Idle`. The call `Encode(f)`
ends either with the whole frame written or, at its first failing event, with `Err(Io)`: what was written stays, nothing of
the rest is issued, and the phase is `Idle` (log entry 22). It holds for every value the sink may draw (log entry 11). -/
def Obligations.FallibleSinkWritesAPrefix : Prop :=
  ∀ (s : State) (h : Handle) (e : Encoder), s.enc? h = some e → s.sinkFallible = true →
    (e.phase = .idle → ∃ t, exec (.encStart h) s = .next t ∧
      EncDrawn h s t e (if e.lead then [0xC0#8] else []) .inFrame) ∧
    (e.phase = .inFrame →
      (∃ t, exec (.encDataEnd h) s = .next t ∧ EncDrawn h s t e [0xDB#8, 0xDC#8] .inFrame) ∧
      (∃ t, exec (.encDataEsc h) s = .next t ∧ EncDrawn h s t e [0xDB#8, 0xDD#8] .inFrame) ∧
      (∀ b, b ≠ 0xC0#8 → b ≠ 0xDB#8 → ∃ t, exec (.encDataLit h b) s = .next t ∧ EncDrawn h s t e [b] .inFrame) ∧
      (∃ t, exec (.encFinish h) s = .next t ∧ EncDrawn h s t e [0xC0#8] .idle)) ∧
    (e.phase = .idle → ∀ f, ∃ o t, callEncode h f s = some (o, t) ∧
      t.tx h = s.tx h ++ o.written ∧ t.enc? h = some { lead := e.lead, phase := .idle } ∧ OnlyEnc h s t ∧
      (o = .emitted (encodeFrame e.lead f) ∨
        ∃ (ws : List (List Byte)) (w : List Byte), o = .errIo (ws.flatten ++ w) ∧
          ws.flatten ++ w <+: (encodeFrame e.lead f).dropLast ∧
          t.encOuts h = s.encOuts h ++ ws.map .emitted ++ [.errIo w]))

/-! ### Host operations -/

/-- R130: DEC.NEW yields a fresh decoder with the given bound beside every existing context. -/
def Obligations.DecNewConstructsAFreshDecoder : Prop :=
  ∀ (s : State) (cap : Option Nat), ∃ t, exec (.decNew cap) s = .next t ∧
    t.decs = s.decs ++ [{ ctx := some { state := .normal, buf := [], cap := cap }, outs := [] }] ∧
    t.encs = s.encs ∧ t.input = s.input ∧ t.sinkFallible = s.sinkFallible

/-- R131: ENC.NEW yields a fresh encoder with the given flag beside every existing context. That its output stream begins
empty, and its record with it, is the model's choice (log entry 5), in keeping with R51 (b). -/
def Obligations.EncNewConstructsAFreshEncoder : Prop :=
  ∀ (s : State) (lead : Bool), ∃ t, exec (.encNew lead) s = .next t ∧
    (∃ n, t.encs = s.encs ++ [{ ctx := some { lead := lead, phase := .idle }, tx := [], outs := [], draws := n }]) ∧
    t.decs = s.decs ∧ t.input = s.input ∧ t.sinkFallible = s.sinkFallible

/-- R132: DEC.RESET returns a decoder, from any state, to its construction state with its bound; nothing is delivered or
reported; and the decoder is as the one that DROP and then DEC.NEW with that bound give. -/
def Obligations.DecResetKeepsTheBoundOnly : Prop :=
  ∀ (s : State) (h : Handle) (d : Decoder), s.dec? h = some d → ∃ t, exec (.decReset h) s = .next t ∧
    t.decs[h]? = some { ctx := some { state := .normal, buf := [], cap := d.cap }, outs := s.decOuts h } ∧ OnlyDec h s t ∧
    (∃ u v, exec (.drop (.dec h)) s = .next u ∧ exec (.decNew d.cap) u = .next v ∧ v.dec? s.decs.length = t.dec? h)

/-- R133: ENC.RESET returns an encoder, from any phase, to `Idle`; the flag and the output stream stay, nothing is emitted. -/
def Obligations.EncResetEmitsNothing : Prop :=
  ∀ (s : State) (h : Handle) (e : Encoder) (p : EncPort), s.encs[h]? = some p → p.ctx = some e →
    ∃ t, exec (.encReset h) s = .next t ∧
      t.encs[h]? = some { ctx := some { lead := e.lead, phase := .idle }, tx := p.tx, outs := p.outs, draws := p.draws } ∧
      OnlyEnc h s t

/-- R134: DROP ends the context; nothing is delivered, emitted or reported, and no later event that names it completes. -/
def Obligations.DropEndsTheContext : Prop :=
  (∀ (s : State) (h : Handle) (d : Decoder), s.dec? h = some d → ∃ t, exec (.drop (.dec h)) s = .next t ∧
    t.decs[h]? = some { ctx := none, outs := s.decOuts h } ∧ OnlyDec h s t ∧
    (∀ e : Event, e.target = some (.dec h) → isNext (react t e) = false)) ∧
  (∀ (s : State) (h : Handle) (e : Encoder) (p : EncPort), s.encs[h]? = some p → p.ctx = some e →
    ∃ t, exec (.drop (.enc h)) s = .next t ∧
      t.encs[h]? = some { ctx := none, tx := p.tx, outs := p.outs, draws := p.draws } ∧ OnlyEnc h s t ∧
      (∀ e : Event, e.target = some (.enc h) → isNext (react t e) = false))

/-! ### Where an event stops -/

/-- R134, D25 (log entry 8): an event naming a context that does not exist is refused. -/
def Obligations.AbsentContextIsRefused : Prop :=
  (∀ (s : State) (e : Event) (h : Handle), e.target = some (.dec h) → s.dec? h = none →
    react s e = .refused .noSuchContext) ∧
  (∀ (s : State) (e : Event) (h : Handle), e.target = some (.enc h) → s.enc? h = none →
    react s e = .refused .noSuchContext)

/-- The model's choice (log entry 7): a row executed where its decoder's state or its byte does not select it is refused. -/
def Obligations.UnselectedRowIsRefused : Prop :=
  (∀ (s : State) (i : Instr) (h : Handle) (b : Byte) (d : Decoder), encode i = .byte h b → s.dec? h = some d →
    (i.wf && d.view.selects i) = false → exec i s = .refused .rowNotSelected) ∧
  (∀ (s : State) (i : Instr) (h : Handle) (b : Byte) (e : Encoder), encode i = .data h b → s.enc? h = some e →
    i.wf = false → exec i s = .refused .rowNotSelected)

/-! ### The decoder's step function -/

/-- R100 against R101 to R109: whatever the byte and the state, presenting it to a decoder that exists completes, and does
what `DecStep` says, and nothing else. -/
def Obligations.ByteStepIsDecStep : Prop :=
  ∀ (s : State) (h : Handle) (b : Byte) (d : Decoder), s.dec? h = some d →
    ∃ t, react s (.byte h b) = .next t ∧ DecStepped h s t (decStep d b).1 (decStep d b).2

/-- R100: the next-state and outcome table, row by row. -/
def Obligations.DecStepIsTheStateTable : Prop :=
  ∀ (buf : List Byte) (cap : Option Nat) (b : Byte),
    (buf ≠ [] → decStep ⟨.normal, buf, cap⟩ 0xC0#8 = (⟨.normal, [], cap⟩, .frame buf)) ∧
    decStep ⟨.normal, [], cap⟩ 0xC0#8 = (⟨.normal, [], cap⟩, .noFrame) ∧
    decStep ⟨.normal, buf, cap⟩ 0xDB#8 = (⟨.escaping, buf, cap⟩, .noFrame) ∧
    (b ≠ 0xC0#8 → b ≠ 0xDB#8 → cap ≠ some buf.length →
      decStep ⟨.normal, buf, cap⟩ b = (⟨.normal, buf ++ [b], cap⟩, .noFrame)) ∧
    (b ≠ 0xC0#8 → b ≠ 0xDB#8 → cap = some buf.length →
      decStep ⟨.normal, buf, cap⟩ b = (⟨.errorRecovery, buf, cap⟩, .err .oversizedPacket)) ∧
    (cap ≠ some buf.length → decStep ⟨.escaping, buf, cap⟩ 0xDC#8 = (⟨.normal, buf ++ [0xC0#8], cap⟩, .noFrame)) ∧
    (cap = some buf.length → decStep ⟨.escaping, buf, cap⟩ 0xDC#8 = (⟨.errorRecovery, buf, cap⟩, .err .oversizedPacket)) ∧
    (cap ≠ some buf.length → decStep ⟨.escaping, buf, cap⟩ 0xDD#8 = (⟨.normal, buf ++ [0xDB#8], cap⟩, .noFrame)) ∧
    (cap = some buf.length → decStep ⟨.escaping, buf, cap⟩ 0xDD#8 = (⟨.errorRecovery, buf, cap⟩, .err .oversizedPacket)) ∧
    (b ≠ 0xDC#8 → b ≠ 0xDD#8 → decStep ⟨.escaping, buf, cap⟩ b = (⟨.errorRecovery, buf, cap⟩, .err .framingError)) ∧
    decStep ⟨.errorRecovery, buf, cap⟩ 0xC0#8 = (⟨.normal, [], cap⟩, .noFrame) ∧
    (b ≠ 0xC0#8 → decStep ⟨.errorRecovery, buf, cap⟩ b = (⟨.errorRecovery, buf, cap⟩, .noFrame))

/-! ### Invariants and whole-machine rules -/

/-- R29, R51 (b), R115, R120: every step keeps the invariant: no buffer outgrows its bound, no delivered frame is empty or
longer than its decoder's bound, and every output stream is the concatenation of what the steps wrote. -/
def Obligations.StepKeepsTheInvariant : Prop :=
  ∀ s t : State, s.Inv → step s = .next t → t.Inv

/-- The machine after reset meets both invariants; no context exists and nothing is pending (R170; the model's reading, log
entry 6), and the sink never fails (R12). -/
def Obligations.ResetMeetsTheInvariants : Prop :=
  State.reset.Inv ∧ State.reset.StreamsPaired ∧ State.reset.sinkFallible = false ∧ State.reset.input = [] ∧
    (∀ h, State.reset.dec? h = none) ∧ (∀ h, State.reset.enc? h = none)

/-- R47, R89 (c): with the core's sink no step ever leaves an ESC on an output stream without its code, frames abandoned by
ENC.RESET or DROP included. -/
def Obligations.StepKeepsEscapesPaired : Prop :=
  ∀ s t : State, s.sinkFallible = false → s.StreamsPaired → step s = .next t → t.StreamsPaired

/-- R9, R10, R23, R24, R186: nothing changes the bound of a decoder or the flag of an encoder. R12 gives SINK_FALLIBLE as a
parameter; that it is a field of State which no instruction changes is the model's choice (log entry 10). -/
def Obligations.ConfigurationNeverChanges : Prop :=
  ∀ s t : State, step s = .next t →
    t.sinkFallible = s.sinkFallible ∧
    (∀ h d d', s.dec? h = some d → t.dec? h = some d' → d'.cap = d.cap) ∧
    (∀ h e e', s.enc? h = some e → t.enc? h = some e' → e'.lead = e.lead)

/-- R46, R32: output streams and the record of outcomes only grow at their end. -/
def Obligations.StreamsAndRecordsOnlyGrow : Prop :=
  ∀ s t : State, step s = .next t → ∀ h,
    s.tx h <+: t.tx h ∧ s.decOuts h <+: t.decOuts h ∧ s.encOuts h <+: t.encOuts h

/-- R134, D25: a dropped context never comes back, and nothing is delivered or emitted for it any more. -/
def Obligations.DroppedContextStaysDropped : Prop :=
  ∀ s t : State, step s = .next t →
    (∀ (h : Handle) (p : DecPort), s.decs[h]? = some p → p.ctx = none → t.decs[h]? = some p) ∧
    (∀ (h : Handle) (p : EncPort), s.encs[h]? = some p → p.ctx = none → t.encs[h]? = some p)

/-- R160, R51: an event changes the context it names and no other; a construction changes none. -/
def Obligations.EventChangesItsContextOnly : Prop :=
  ∀ (s t : State) (e : Event), react s e = .next t →
    (∀ h, e.target = some (.dec h) → OnlyDec h s t) ∧
    (∀ h, e.target = some (.enc h) → OnlyEnc h s t) ∧
    (e.target = none → s.decs <+: t.decs ∧ s.encs <+: t.encs ∧ t.input = s.input ∧ t.sinkFallible = s.sinkFallible)

/-- R51, R160: the relative order of events of different contexts has no effect: executed in either order they lead to the
same machine, every outcome and every stream included. -/
def Obligations.EventsOfDifferentContextsCommute : Prop :=
  ∀ (s t u : State) (e₁ e₂ : Event) (c₁ c₂ : Ctx), e₁.target = some c₁ → e₂.target = some c₂ → c₁ ≠ c₂ →
    react s e₁ = .next t → react t e₂ = .next u →
    ∃ t', react s e₂ = .next t' ∧ react t' e₁ = .next u

/-! ### Errors -/

/-- R121: only the rows of R104 to R107 report an error; a step reports one exactly when it enters `ErrorRecovery`, never
inside it; and over any byte sequence the errors reported are as many as the entries. -/
def Obligations.ErrorsAreReportedOnce : Prop :=
  (∀ (d : Decoder) (h : Handle) (b : Byte), (decStep d b).2.isErr = true →
    decodeByte { state := d.state, bufEmpty := d.buf.isEmpty } h b ∈
      [.decNLit h b, .decEEscEnd h, .decEEscEsc h, .decEBad h b]) ∧
  (∀ (d : Decoder) (b : Byte),
    (decStep d b).2.isErr = true ↔ (d.state ≠ .errorRecovery ∧ (decStep d b).1.state = .errorRecovery)) ∧
  (∀ (bytes : List Byte) (d : Decoder),
    ((decRun bytes d).1.filter DecOutcome.isErr).length = recoveryEntries bytes d)

/-- R141: `FramingError` has exactly one cause. -/
def Obligations.FramingErrorCause : Prop :=
  ∀ (d : Decoder) (b : Byte),
    (decStep d b).2 = .err .framingError ↔ (d.state = .escaping ∧ b ≠ 0xDC#8 ∧ b ≠ 0xDD#8)

/-- R142: `OversizedPacket` has exactly three causes, each with a full buffer; it never arises without a bound, nor where the
append just reaches the bound. -/
def Obligations.OversizedPacketCause : Prop :=
  ∀ (d : Decoder) (b : Byte),
    ((decStep d b).2 = .err .oversizedPacket ↔
      (d.cap = some d.buf.length ∧
        ((d.state = .normal ∧ b ≠ 0xC0#8 ∧ b ≠ 0xDB#8) ∨ (d.state = .escaping ∧ (b = 0xDC#8 ∨ b = 0xDD#8))))) ∧
    (d.cap = none → (decStep d b).2 ≠ .err .oversizedPacket) ∧
    (d.cap = some (d.buf.length + 1) → (decStep d b).2 ≠ .err .oversizedPacket)

/-- R147, R148, R144: the entry into recovery keeps the buffer and the bound and sets the state, in the step that reports;
R150: the only byte that leaves recovery is 0xC0, and it leaves a fresh decoder. -/
def Obligations.RecoveryEntryAndReturn : Prop :=
  (∀ (d : Decoder) (b : Byte) (e : DecError), (decStep d b).2 = .err e →
    (decStep d b).1 = { state := .errorRecovery, buf := d.buf, cap := d.cap }) ∧
  (∀ (d : Decoder) (b : Byte), d.state = .errorRecovery →
    (((decStep d b).1.state ≠ .errorRecovery ↔ b = 0xC0#8) ∧
      (b = 0xC0#8 → (decStep d b).1 = { state := .normal, buf := [], cap := d.cap })))

/-- R33: no outcome, however far ahead, depends on the garbage a decoder holds in `ErrorRecovery`. -/
def Obligations.GarbageIsNeverSeen : Prop :=
  ∀ (bytes g g' : List Byte) (cap : Option Nat),
    (decRun bytes ⟨.errorRecovery, g, cap⟩).1 = (decRun bytes ⟨.errorRecovery, g', cap⟩).1

/-! ### Encoding frames -/

/-- R87: the length of the wire bytes of a frame, and the bounds that follow. -/
def Obligations.EncodedLength : Prop :=
  ∀ (lead : Bool) (f : List Byte),
    (encodeFrame lead f).length =
      f.length + 1 + (if lead then 1 else 0) + f.countP (fun b => b == 0xC0#8 || b == 0xDB#8) ∧
    f.length + 1 ≤ (encodeFrame lead f).length ∧ (encodeFrame lead f).length ≤ 2 * f.length + 2

/-- R89: the properties (a) to (d) of the bytes emitted for a frame. -/
def Obligations.WireBytesAreStuffed : Prop :=
  ∀ (lead : Bool) (f body : List Byte),
    body = ((encodeFrame lead f).drop (if lead then 1 else 0)).dropLast →
    ((encodeFrame lead f).getLast? = some 0xC0#8 ∧ (lead = true → (encodeFrame lead f).head? = some 0xC0#8)) ∧
    0xC0#8 ∉ body ∧
    (∀ i, body[i]? = some 0xDB#8 → body[i + 1]? = some 0xDC#8 ∨ body[i + 1]? = some 0xDD#8) ∧
    (body = [] ↔ f = []) ∧
    WireFrame lead (encodeFrame lead f)

/-- R86: the call `Encode(f)` on an idle encoder appends exactly the leading END if any, the stuffed payload and the trailing
END to its stream, answers them, and leaves it idle; nothing else changes. Its events, pending before all others, lead to the
same machine step by step. -/
def Obligations.EncodeCallAppendsTheWireFrame : Prop :=
  ∀ (s : State) (h : Handle) (lead : Bool) (f : List Byte),
    s.enc? h = some { lead := lead, phase := .idle } → s.sinkFallible = false →
    ∃ t wire, callEncode h f s = some (.emitted wire, t) ∧
      steps (f.length + 2) { s with input := .start h :: (f.map (Event.data h) ++ [.finish h]) ++ s.input } = .next t ∧
      wire = (if lead then [0xC0#8] else []) ++
        (f.map (fun b => if b = 0xC0#8 then [0xDB#8, 0xDC#8] else if b = 0xDB#8 then [0xDB#8, 0xDD#8] else [b])).flatten ++
        [0xC0#8] ∧
      t.tx h = s.tx h ++ wire ∧
      t.enc? h = some { lead := lead, phase := .idle } ∧ OnlyEnc h s t

/-- R90: frames encoded in turn stand one after another on the stream, with nothing between them and nothing carried over. -/
def Obligations.EncodingInTurnConcatenates : Prop :=
  ∀ (s : State) (h : Handle) (lead : Bool) (fs : List (List Byte)),
    s.enc? h = some { lead := lead, phase := .idle } → s.sinkFallible = false →
    ∃ t, callEncodes h fs s = some (fs.map (fun f => .emitted (encodeFrame lead f)), t) ∧ t.tx h = s.tx h ++ fs.flatMap (encodeFrame lead) ∧
      t.enc? h = some { lead := lead, phase := .idle } ∧ OnlyEnc h s t

/-! ### Decoding chunks and streams -/

/-- R110: the call `Decode(chunk)` on the machine returns the outcome and the count of the loop of byte steps, leaves the
decoder as that loop does, records one outcome for each byte consumed, and changes nothing else. -/
def Obligations.DecodeCallRunsTheLoop : Prop :=
  ∀ (s : State) (h : Handle) (chunk : List Byte) (d : Decoder), s.dec? h = some d →
    ∃ t, callDecode h chunk s = some (((decodeCall chunk d).outcome, (decodeCall chunk d).consumed), t) ∧
      t.dec? h = some (decodeCall chunk d).dec ∧
      t.decOuts h = s.decOuts h ++ (decRun (chunk.take (decodeCall chunk d).consumed) d).1 ∧ OnlyDec h s t

/-- R110, R114: a `Decode` call consumes bytes from the front, stops after the first that reports anything, and reports that
alone; where nothing is reported the whole chunk is consumed. -/
def Obligations.DecodeCallReportsAtMostOnce : Prop :=
  ∀ (chunk : List Byte) (d : Decoder),
    (decodeCall chunk d).consumed ≤ chunk.length ∧
    (decRun (chunk.take (decodeCall chunk d).consumed) d).2 = (decodeCall chunk d).dec ∧
    ((decodeCall chunk d).outcome = .noFrame →
      (decodeCall chunk d).consumed = chunk.length ∧ ∀ o ∈ (decRun chunk d).1, o = .noFrame) ∧
    ((decodeCall chunk d).outcome ≠ .noFrame →
      ∃ n, (decodeCall chunk d).consumed = n + 1 ∧
        (decRun (chunk.take (n + 1)) d).1 = List.replicate n .noFrame ++ [(decodeCall chunk d).outcome])

/-- R111: `DecodeAll` collects the outcomes that are not `None`, in order, and ends where the byte steps end; `Frames` of it
are the frames that the byte steps deliver. -/
def Obligations.DecodeAllCollectsTheReports : Prop :=
  ∀ (bytes : List Byte) (d : Decoder),
    decodeAll bytes d = ((decRun bytes d).1.filter (fun o => o != .noFrame), (decRun bytes d).2) ∧
    frames (decodeAll bytes d).1 = (decRun bytes d).1.filterMap DecOutcome.frame?

/-- R118: however a byte sequence is cut into chunks, the outcomes and the final decoder are the same. -/
def Obligations.ChunkBoundariesAreNoEvents : Prop :=
  ∀ (chunks : List (List Byte)) (d : Decoder), decodeChunks chunks d = decodeAll chunks.flatten d

/-- R51 (a): bytes pending for one decoder are consumed in order, one step each; its record grows by the outcomes of those
steps, and nothing else changes. -/
def Obligations.PendingBytesAreConsumedInOrder : Prop :=
  ∀ (s : State) (h : Handle) (bytes : List Byte) (rest : List Event) (d : Decoder),
    s.dec? h = some d → s.input = byteEvents h bytes ++ rest →
    ∃ t, steps bytes.length s = .next t ∧ t.dec? h = some (decRun bytes d).2 ∧
      t.decOuts h = s.decOuts h ++ (decRun bytes d).1 ∧ t.input = rest ∧ OnlyDec h { s with input := rest } t

/-- R115: no step delivers an empty frame, and an encoded empty frame decodes to nothing. -/
def Obligations.EmptyFramesAreNeverDelivered : Prop :=
  (∀ (d : Decoder) (b : Byte), (decStep d b).2 ≠ .frame []) ∧
  (∀ (lead : Bool) (cap : Option Nat), decodeAll (encodeFrame lead []) (freshDecoder cap) = ([], freshDecoder cap))

/-- R116: every frame of at least one byte that fits the bound comes back whole, without error, and the decoder is as before;
for the empty frame there is nothing to report. -/
def Obligations.RoundTripOfAFrame : Prop :=
  ∀ (lead : Bool) (f : List Byte) (d : Decoder), d.state = .normal → d.buf = [] → FitsBound d.cap f.length →
    decodeAll (encodeFrame lead f) d = (if f = [] then [] else [.frame f], d)

/-- R117: from recovery, any bytes up to and including the next END report nothing and leave a fresh decoder. -/
def Obligations.ResynchronisesAtTheNextEnd : Prop :=
  ∀ (d : Decoder) (bytes : List Byte), d.state = .errorRecovery → 0xC0#8 ∉ bytes →
    decodeAll (bytes ++ [0xC0#8]) d = ([], { state := .normal, buf := [], cap := d.cap })

/-- R119: a frame longer than the bound is reported once as `OversizedPacket`, at the last of the wire bytes of payload byte
`C` (the literal, or the code of the escape sequence), is not delivered in part, and its trailing END leaves the decoder as
before. -/
def Obligations.OversizedFrameIsDroppedWhole : Prop :=
  ∀ (lead : Bool) (f : List Byte) (x : Byte) (d : Decoder) (c : Nat),
    d.state = .normal → d.buf = [] → d.cap = some c → f[c]? = some x →
    decodeAll (encodeFrame lead f) d = ([.err .oversizedPacket], d) ∧
    (decodeAll ((if lead then [0xC0#8] else []) ++ (f.take c).flatMap encByte ++ (encByte x).dropLast) d).1 = [] ∧
    (decodeAll ((if lead then [0xC0#8] else []) ++ (f.take (c + 1)).flatMap encByte) d).1 = [.err .oversizedPacket]

/-- R120: a delivered frame has at least one byte and at most as many as the bound; with bound 0 none is ever delivered. -/
def Obligations.DeliveredFramesFitTheBound : Prop :=
  (∀ (d : Decoder) (b : Byte) (f : List Byte), d.bounded = true → (decStep d b).2 = .frame f →
    1 ≤ f.length ∧ FitsBound d.cap f.length) ∧
  (∀ (bytes : List Byte) (d : Decoder), d.bounded = true → d.cap = some 0 → frames (decRun bytes d).1 = [])

/-- R123: a decoder that exists never rejects a byte, and no state is terminal: `ErrorRecovery` leaves on 0xC0, `Escaping` on
any byte, and `Normal` can be reached from everywhere. -/
def Obligations.DecoderIsTotalAndNeverStuck : Prop :=
  (∀ (s : State) (h : Handle) (b : Byte) (d : Decoder), s.dec? h = some d → isNext (react s (.byte h b)) = true) ∧
  (∀ d : Decoder, d.state = .errorRecovery → (decStep d 0xC0#8).1.state = .normal) ∧
  (∀ (d : Decoder) (b : Byte), d.state = .escaping → (decStep d b).1.state ≠ .escaping) ∧
  (∀ d : Decoder, ∃ bytes, (decRun bytes d).2.state = .normal)

/-- R124: frames sent one after another arrive in order, the empty ones left out; a decoder that joined in mid-frame flushes
its bytes at a leading END or joins them to the frame without one; a decoder in recovery resumes at a leading END or loses the
frame without one. -/
def Obligations.StreamOfFramesIsDelivered : Prop :=
  ∀ (fs : List (Bool × List Byte)) (cap : Option Nat), (∀ x ∈ fs, FitsBound cap x.2.length) →
    decodeAll (encodeFrames fs) ⟨.normal, [], cap⟩ = (owedReports fs, ⟨.normal, [], cap⟩) ∧
    (∀ g f, g ≠ [] → FitsBound cap f.length →
      decodeAll (encodeFrames ((true, f) :: fs)) ⟨.normal, g, cap⟩ =
        (.frame g :: owedReports ((true, f) :: fs), ⟨.normal, [], cap⟩)) ∧
    (∀ g f, g ≠ [] → FitsBound cap (g ++ f).length →
      decodeAll (encodeFrames ((false, f) :: fs)) ⟨.normal, g, cap⟩ =
        (.frame (g ++ f) :: owedReports fs, ⟨.normal, [], cap⟩)) ∧
    (∀ g f, FitsBound cap f.length →
      decodeAll (encodeFrames ((true, f) :: fs)) ⟨.errorRecovery, g, cap⟩ =
        (owedReports ((true, f) :: fs), ⟨.normal, [], cap⟩)) ∧
    (∀ g f, decodeAll (encodeFrames ((false, f) :: fs)) ⟨.errorRecovery, g, cap⟩ = (owedReports fs, ⟨.normal, [], cap⟩))

/-- R116 on the machine: a frame encoded by one of its encoders, and the new bytes of that stream presented to one of its
decoders, is delivered whole and alone; encoder and decoder end as they began. -/
def Obligations.LoopbackDeliversTheFrame : Prop :=
  ∀ (s : State) (k h : Handle) (lead : Bool) (cap : Option Nat) (f : List Byte), f ≠ [] → FitsBound cap f.length →
    s.enc? k = some { lead := lead, phase := .idle } → s.sinkFallible = false →
    s.dec? h = some { state := .normal, buf := [], cap := cap } →
    ∃ t u wire, callEncode k f s = some (.emitted wire, t) ∧ t.tx k = s.tx k ++ wire ∧
      steps wire.length { t with input := byteEvents h wire ++ t.input } = .next u ∧
      reports (u.decOuts h) = reports (s.decOuts h) ++ [.frame f] ∧
      u.dec? h = some { state := .normal, buf := [], cap := cap } ∧
      u.enc? k = some { lead := lead, phase := .idle } ∧ u.tx k = t.tx k ∧ u.input = s.input
end

