-- ==== Sys2Proof/Laws/State.lean ====
section
/-! SUPPORT. One lemma per field per update of the state, and what the accessors read after an update. -/

namespace Sys2Proof.Machine

/-! ### Decoder contexts -/

@[simp] theorem bufAppend_state (d : Decoder) (v : Byte) : (bufAppend d v).state = d.state := rfl
@[simp] theorem bufAppend_buf (d : Decoder) (v : Byte) : (bufAppend d v).buf = d.buf ++ [v] := rfl
@[simp] theorem bufAppend_cap (d : Decoder) (v : Byte) : (bufAppend d v).cap = d.cap := rfl
@[simp] theorem bufClear_state (d : Decoder) : (bufClear d).state = d.state := rfl
@[simp] theorem bufClear_buf (d : Decoder) : (bufClear d).buf = [] := rfl
@[simp] theorem bufClear_cap (d : Decoder) : (bufClear d).cap = d.cap := rfl
@[simp] theorem bufTake_fst (d : Decoder) : (bufTake d).1 = d.buf := rfl
@[simp] theorem bufTake_snd (d : Decoder) : (bufTake d).2 = bufClear d := rfl
@[simp] theorem freshDecoder_state (c : Option Nat) : (freshDecoder c).state = .normal := rfl
@[simp] theorem freshDecoder_buf (c : Option Nat) : (freshDecoder c).buf = [] := rfl
@[simp] theorem freshDecoder_cap (c : Option Nat) : (freshDecoder c).cap = c := rfl
@[simp] theorem freshEncoder_lead (l : Bool) : (freshEncoder l).lead = l := rfl
@[simp] theorem freshEncoder_phase (l : Bool) : (freshEncoder l).phase = .idle := rfl
@[simp] theorem view_state (d : Decoder) : d.view.state = d.state := rfl
@[simp] theorem view_bufEmpty (d : Decoder) : d.view.bufEmpty = d.buf.isEmpty := rfl

/-! ### One element of a list changed -/

/-- What held of every element, and holds of the changed one, holds of every element after the change. -/
theorem all_modify {α : Type} {l : List α} {i : Nat} {f : α → α} {P : α → Bool} (hl : l.all P = true)
    (hf : ∀ a, l[i]? = some a → P (f a) = true) : (l.modify i f).all P = true := by
  rw [List.all_eq_true] at hl ⊢
  intro x hx
  obtain ⟨k, hk⟩ := List.mem_iff_getElem?.1 hx
  rw [List.getElem?_modify] at hk
  cases ha : l[k]? with
  | none => simp [ha] at hk
  | some a =>
    by_cases hik : i = k
    · subst hik
      have hx : f a = x := by simpa [ha] using hk
      exact hx ▸ hf a ha
    · have hx : a = x := by simpa [ha, hik] using hk
      exact hx ▸ hl a (List.mem_of_getElem? ha)

/-! ### Fields of the state after an update of a port -/

section
variable (s : State) (h : Handle)

@[simp] theorem updDec_decs (f : DecPort → DecPort) : (s.updDec h f).decs = s.decs.modify h f := rfl
@[simp] theorem updDec_encs (f : DecPort → DecPort) : (s.updDec h f).encs = s.encs := rfl
@[simp] theorem updDec_input (f : DecPort → DecPort) : (s.updDec h f).input = s.input := rfl
@[simp] theorem updDec_sink (f : DecPort → DecPort) : (s.updDec h f).sinkFallible = s.sinkFallible := rfl
@[simp] theorem updEnc_decs (f : EncPort → EncPort) : (s.updEnc h f).decs = s.decs := rfl
@[simp] theorem updEnc_encs (f : EncPort → EncPort) : (s.updEnc h f).encs = s.encs.modify h f := rfl
@[simp] theorem updEnc_input (f : EncPort → EncPort) : (s.updEnc h f).input = s.input := rfl
@[simp] theorem updEnc_sink (f : EncPort → EncPort) : (s.updEnc h f).sinkFallible = s.sinkFallible := rfl
@[simp] theorem pushEvent_decs (e : Event) : (s.pushEvent e).decs = s.decs := rfl
@[simp] theorem pushEvent_encs (e : Event) : (s.pushEvent e).encs = s.encs := rfl
@[simp] theorem pushEvent_input (e : Event) : (s.pushEvent e).input = e :: s.input := rfl
@[simp] theorem pushEvent_sink (e : Event) : (s.pushEvent e).sinkFallible = s.sinkFallible := rfl

/-! ### The pending events are no part of a context -/

@[simp] theorem dec?_withInput (es : List Event) (k : Handle) :
    State.dec? { s with input := es } k = s.dec? k := rfl
@[simp] theorem enc?_withInput (es : List Event) (k : Handle) :
    State.enc? { s with input := es } k = s.enc? k := rfl
@[simp] theorem decOuts_withInput (es : List Event) (k : Handle) :
    State.decOuts { s with input := es } k = s.decOuts k := rfl
@[simp] theorem encOuts_withInput (es : List Event) (k : Handle) :
    State.encOuts { s with input := es } k = s.encOuts k := rfl
@[simp] theorem tx_withInput (es : List Event) (k : Handle) :
    State.tx { s with input := es } k = s.tx k := rfl
@[simp] theorem viewFor_withInput (es : List Event) (e : Event) :
    State.viewFor { s with input := es } e = s.viewFor e := rfl

/-! ### Reading back -/

/-- A decoder that exists stands in a port. -/
theorem dec?_eq_some {s : State} {h : Handle} {d : Decoder} :
    s.dec? h = some d ↔ ∃ p, s.decs[h]? = some p ∧ p.ctx = some d := by
  simp [State.dec?, Option.bind_eq_some_iff]

/-- An encoder that exists stands in a port. -/
theorem enc?_eq_some {s : State} {h : Handle} {e : Encoder} :
    s.enc? h = some e ↔ ∃ p, s.encs[h]? = some p ∧ p.ctx = some e := by
  simp [State.enc?, Option.bind_eq_some_iff]

/-- The port itself, after its update. -/
theorem updDec_port_self {s : State} {h : Handle} {p : DecPort} (hp : s.decs[h]? = some p) (f : DecPort → DecPort) :
    (s.updDec h f).decs[h]? = some (f p) := by
  simp [hp]

theorem updEnc_port_self {s : State} {h : Handle} {p : EncPort} (hp : s.encs[h]? = some p) (f : EncPort → EncPort) :
    (s.updEnc h f).encs[h]? = some (f p) := by
  simp [hp]

/-- Every other port, after the update. -/
theorem updDec_port_other {k : Handle} (hk : k ≠ h) (f : DecPort → DecPort) :
    (s.updDec h f).decs[k]? = s.decs[k]? := by
  simp [Ne.symm hk]

theorem updEnc_port_other {k : Handle} (hk : k ≠ h) (f : EncPort → EncPort) :
    (s.updEnc h f).encs[k]? = s.encs[k]? := by
  simp [Ne.symm hk]

theorem dec?_updDec_other {k : Handle} (hk : k ≠ h) (f : DecPort → DecPort) :
    (s.updDec h f).dec? k = s.dec? k := by
  simp only [State.dec?, updDec_port_other s h hk]

theorem enc?_updEnc_other {k : Handle} (hk : k ≠ h) (f : EncPort → EncPort) :
    (s.updEnc h f).enc? k = s.enc? k := by
  simp only [State.enc?, updEnc_port_other s h hk]

@[simp] theorem enc?_updDec (f : DecPort → DecPort) (k : Handle) : (s.updDec h f).enc? k = s.enc? k := rfl
@[simp] theorem dec?_updEnc (f : EncPort → EncPort) (k : Handle) : (s.updEnc h f).dec? k = s.dec? k := rfl
@[simp] theorem tx_updDec (f : DecPort → DecPort) (k : Handle) : (s.updDec h f).tx k = s.tx k := rfl
@[simp] theorem encOuts_updDec (f : DecPort → DecPort) (k : Handle) : (s.updDec h f).encOuts k = s.encOuts k := rfl
@[simp] theorem decOuts_updEnc (f : EncPort → EncPort) (k : Handle) : (s.updEnc h f).decOuts k = s.decOuts k := rfl

end

end Sys2Proof.Machine
end

