-- ==== Sys2Proof/Laws/Ops.lean ====
section
/-! SUPPORT. One lemma per shared operation that says everything it can do, and one inversion lemma for `exec`. -/

namespace Sys2Proof.Machine

/-! ### The tokens are distinct (R30) -/

@[simp] theorem END_ne_ESC : Token.END ≠ Token.ESC := by decide
@[simp] theorem END_ne_ESC_END : Token.END ≠ Token.ESC_END := by decide
@[simp] theorem END_ne_ESC_ESC : Token.END ≠ Token.ESC_ESC := by decide
@[simp] theorem ESC_ne_END : Token.ESC ≠ Token.END := by decide
@[simp] theorem ESC_ne_ESC_END : Token.ESC ≠ Token.ESC_END := by decide
@[simp] theorem ESC_ne_ESC_ESC : Token.ESC ≠ Token.ESC_ESC := by decide
@[simp] theorem ESC_END_ne_END : Token.ESC_END ≠ Token.END := by decide
@[simp] theorem ESC_END_ne_ESC : Token.ESC_END ≠ Token.ESC := by decide
@[simp] theorem ESC_END_ne_ESC_ESC : Token.ESC_END ≠ Token.ESC_ESC := by decide
@[simp] theorem ESC_ESC_ne_END : Token.ESC_ESC ≠ Token.END := by decide
@[simp] theorem ESC_ESC_ne_ESC : Token.ESC_ESC ≠ Token.ESC := by decide
@[simp] theorem ESC_ESC_ne_ESC_END : Token.ESC_ESC ≠ Token.ESC_END := by decide

/-! ### Conditions -/

/-- `BufFull()` as the rules say it (R41): the bound is set and equals the length. -/
theorem bufFull_iff (d : Decoder) : d.bufFull = true ↔ d.cap = some d.buf.length := by
  unfold Decoder.bufFull
  cases d.cap with
  | none => simp
  | some c =>
    simp only [beq_iff_eq, Option.some.injEq]
    exact eq_comm

/-- Without a bound the buffer is never full. -/
theorem bufFull_of_cap_none {d : Decoder} (h : d.cap = none) : d.bufFull = false := by
  simp [Decoder.bufFull, h]

/-! ### Appending -/

theorem tryAppend_full {d : Decoder} (h : d.cap = some d.buf.length) (v : Byte) :
    tryAppend d v = ({ d with state := .errorRecovery }, .err .oversizedPacket) := by
  rw [tryAppend, if_pos ((bufFull_iff d).2 h)]
  rfl

theorem tryAppend_room {d : Decoder} (h : d.cap ≠ some d.buf.length) (v : Byte) :
    tryAppend d v = ({ d with state := .normal, buf := d.buf ++ [v] }, .noFrame) := by
  have hf : ¬ d.bufFull = true := fun hf => h ((bufFull_iff d).1 hf)
  rw [tryAppend, if_neg hf]
  rfl

/-- Room below the bound. -/
theorem tryAppend_below {d : Decoder} (h : FitsBound d.cap (d.buf.length + 1)) (v : Byte) :
    tryAppend d v = ({ d with state := .normal, buf := d.buf ++ [v] }, .noFrame) :=
  tryAppend_room (fun hc => by have := h _ hc; omega) v

/-- No operation on a decoder changes its bound (R23). -/
@[simp] theorem tryAppend_cap (d : Decoder) (v : Byte) : (tryAppend d v).1.cap = d.cap := by
  unfold tryAppend raiseError
  split <;> rfl

@[simp] theorem raiseError_cap (d : Decoder) (e : DecError) : (raiseError d e).1.cap = d.cap := rfl
@[simp] theorem recover_cap (d : Decoder) : (recover d).1.cap = d.cap := rfl
@[simp] theorem deliver_cap (d : Decoder) : (deliver d).1.cap = d.cap := rfl

/-- An append keeps the capacity invariant (R29). -/
theorem tryAppend_bounded {d : Decoder} (h : d.bounded = true) (v : Byte) : (tryAppend d v).1.bounded = true := by
  unfold tryAppend
  split
  · exact h
  · rename_i hf
    unfold Decoder.bounded at h ⊢
    simp only [bufAppend_cap, bufAppend_buf, List.length_append, List.length_singleton]
    cases hc : d.cap with
    | none => rfl
    | some c =>
      have hne : d.buf.length ≠ c := by simpa [Decoder.bufFull, hc] using hf
      simp only [hc, decide_eq_true_eq] at h ⊢
      omega

/-! ### The sink -/

theorem emit_infallible (p : EncPort) (h : Handle) (e : Encoder) (bytes : List Byte) (ph : Phase) :
    p.emit false h e bytes ph =
      { p with ctx := some { e with phase := ph }, tx := p.tx ++ bytes, outs := p.outs ++ [.emitted bytes] } := rfl

/-- What a sink that may fail leaves: all of the bytes, or a leading part of those before the last one and `Err(Io)`. -/
theorem emit_fallible (p : EncPort) (h : Handle) (e : Encoder) (bytes : List Byte) (ph : Phase) :
    p.emit true h e bytes ph =
        { ctx := some { e with phase := ph }, tx := p.tx ++ bytes, outs := p.outs ++ [.emitted bytes], draws := p.draws + 1 } ∨
      ∃ w, w <+: bytes.dropLast ∧ p.emit true h e bytes ph =
        { ctx := some { e with phase := .idle }, tx := p.tx ++ w, outs := p.outs ++ [.errIo w], draws := p.draws + 1 } := by
  cases hk : Config.sinkFails h p.draws with
  | false => exact .inl (by simp [EncPort.emit, hk])
  | true => exact .inr ⟨_, List.take_prefix (Config.sinkWrites h p.draws) _, by simp [EncPort.emit, hk]⟩

/-- Whatever the sink does, an encoder step writes a leading part of its bytes, records it, and keeps `enc.lead`. -/
theorem emit_cases (p : EncPort) (fallible : Bool) (h : Handle) (e : Encoder) (bytes : List Byte) (ph : Phase) :
    ∃ w o ph', w <+: bytes ∧ EncOutcome.written o = w ∧ (p.emit fallible h e bytes ph).ctx = some { e with phase := ph' } ∧
      (p.emit fallible h e bytes ph).tx = p.tx ++ w ∧ (p.emit fallible h e bytes ph).outs = p.outs ++ [o] := by
  cases fallible with
  | false => exact ⟨bytes, .emitted bytes, ph, List.prefix_refl _, rfl, rfl, rfl, rfl⟩
  | true =>
    obtain he | ⟨w, hw, he⟩ := emit_fallible p h e bytes ph
    · exact ⟨bytes, .emitted bytes, ph, List.prefix_refl _, rfl, by rw [he], by rw [he], by rw [he]⟩
    · exact ⟨w, .errIo w, .idle, hw.trans (List.dropLast_prefix _), rfl, by rw [he], by rw [he], by rw [he]⟩

/-! ### What an update of one port leaves alone -/

theorem onlyDec_updDec (s : State) (h : Handle) (f : DecPort → DecPort) : OnlyDec h s (s.updDec h f) :=
  ⟨rfl, rfl, rfl, by simp, fun _ hk => updDec_port_other s h hk f⟩

theorem onlyEnc_updEnc (s : State) (h : Handle) (f : EncPort → EncPort) : OnlyEnc h s (s.updEnc h f) :=
  ⟨rfl, rfl, rfl, by simp, fun _ hk => updEnc_port_other s h hk f⟩

/-- A decoder step does what its name says. -/
theorem decStepped_spec {s : State} {h : Handle} {d : Decoder} (hd : s.dec? h = some d) (r : Decoder × DecOutcome) :
    DecStepped h s (s.decStepped h r) r.1 r.2 := by
  obtain ⟨p, hp, -⟩ := dec?_eq_some.1 hd
  exact ⟨by simp [State.decStepped, State.decOuts, hp], onlyDec_updDec s h _⟩

/-- The context after a decoder step. -/
theorem DecStepped.dec? {h : Handle} {s t : State} {d : Decoder} {o : DecOutcome} (hs : DecStepped h s t d o) :
    t.dec? h = some d := dec?_eq_some.2 ⟨_, hs.1, rfl⟩

/-- The record after a decoder step. -/
theorem DecStepped.decOuts {h : Handle} {s t : State} {d : Decoder} {o : DecOutcome} (hs : DecStepped h s t d o) :
    t.decOuts h = s.decOuts h ++ [o] := by simp [State.decOuts, hs.1]

/-- An encoder step on the core's sink does what its name says. -/
theorem encStepped_spec {s : State} {h : Handle} {e : Encoder} (he : s.enc? h = some e) (bytes : List Byte) (ph : Phase) :
    EncStepped h s (s.updEnc h (fun p => p.emit false h e bytes ph)) { e with phase := ph } bytes := by
  obtain ⟨p, hp, -⟩ := enc?_eq_some.1 he
  exact ⟨⟨p, hp, by simp [hp, emit_infallible]⟩, onlyEnc_updEnc s h _⟩

/-- An encoder step on a sink that may fail does what its name says. -/
theorem encDrawn_spec {s : State} {h : Handle} {e : Encoder} (he : s.enc? h = some e) (bytes : List Byte) (ph : Phase) :
    EncDrawn h s (s.updEnc h (fun p => p.emit true h e bytes ph)) e bytes ph := by
  obtain ⟨p, hp, -⟩ := enc?_eq_some.1 he
  refine ⟨⟨p, hp, ?_⟩, onlyEnc_updEnc s h _⟩
  rw [updEnc_port_self hp]
  obtain hq | ⟨w, hw, hq⟩ := emit_fallible p h e bytes ph
  · exact .inl (by rw [hq])
  · exact .inr ⟨w, hw, by rw [hq]⟩

/-! ### One step of a row -/

/-- A decoder row that is selected completes. -/
theorem decRow_next {i : Instr} {h : Handle} {tr : Decoder → Decoder × DecOutcome} {s : State} {d : Decoder}
    (hd : s.dec? h = some d) (hw : i.wf = true) (hv : d.view.selects i = true) :
    decRow i h tr s = .next (s.decStepped h (tr d)) := by
  simp [decRow, hd, hw, hv]

/-- What a decoder row can answer with a next state. -/
theorem decRow_cases {i : Instr} {h : Handle} {tr : Decoder → Decoder × DecOutcome} {s t : State}
    (hx : decRow i h tr s = .next t) :
    ∃ d, s.dec? h = some d ∧ i.wf = true ∧ d.view.selects i = true ∧ t = s.decStepped h (tr d) := by
  unfold decRow at hx
  split at hx
  · cases hx
  · rename_i d hd
    split at hx
    · rename_i hc
      cases hx
      exact ⟨d, hd, (Bool.and_eq_true_iff.1 hc).1, (Bool.and_eq_true_iff.1 hc).2, rfl⟩
    · cases hx

/-- An encoder row in its phase completes. -/
theorem encRow_next {i : Instr} {h : Handle} {pre post : Phase} {bytes : Encoder → List Byte} {s : State} {e : Encoder}
    (he : s.enc? h = some e) (hw : i.wf = true) (hp : e.phase = pre) :
    encRow i h pre bytes post s = .next (s.updEnc h (fun p => p.emit s.sinkFallible h e (bytes e) post)) := by
  simp [encRow, he, hw, hp]

/-- What an encoder row can answer with a next state. -/
theorem encRow_cases {i : Instr} {h : Handle} {pre post : Phase} {bytes : Encoder → List Byte} {s t : State}
    (hx : encRow i h pre bytes post s = .next t) :
    ∃ e, s.enc? h = some e ∧ i.wf = true ∧ e.phase = pre ∧
      t = s.updEnc h (fun p => p.emit s.sinkFallible h e (bytes e) post) := by
  unfold encRow at hx
  split at hx
  · cases hx
  · rename_i e he
    split at hx
    · cases hx
    · rename_i hw
      split at hx
      · rename_i hp
        cases hx
        exact ⟨e, he, by simpa using hw, hp, rfl⟩
      · cases hx

/-! ### What `exec` can do -/

/-- The transitions a decoder row can make, the row's selection included. -/
inductive DecTransition (d : Decoder) : Decoder × DecOutcome → Prop where
  | delivered (h : d.state = .normal) (hb : d.buf ≠ []) : DecTransition d (deliver d)
  | unchanged (h : d.state = .normal ∧ d.buf = [] ∨ d.state = .errorRecovery) : DecTransition d (d, .noFrame)
  | escaped (h : d.state = .normal) : DecTransition d ({ d with state := .escaping }, .noFrame)
  | appended (v : Byte) (h : d.state = .normal ∨ d.state = .escaping) : DecTransition d (tryAppend d v)
  | violated (h : d.state = .escaping) : DecTransition d (raiseError d .framingError)
  | recovered (h : d.state = .errorRecovery) : DecTransition d (recover d)

/-- The emissions an encoder row can ask for. -/
inductive Emission (e : Encoder) : List Byte → Phase → Prop where
  | start (h : e.phase = .idle) : Emission e (leadBytes e.lead) .inFrame
  | payload (b : Byte) (h : e.phase = .inFrame) : Emission e (encByte b) .inFrame
  | finish (h : e.phase = .inFrame) : Emission e [Token.END] .idle

/-- Everything an instruction that completes can do to the machine. -/
inductive ExecEffect (s : State) : State → Prop where
  | decoder (h : Handle) (d : Decoder) (r : Decoder × DecOutcome) (hd : s.dec? h = some d) (hr : DecTransition d r) :
      ExecEffect s (s.decStepped h r)
  | encoder (h : Handle) (e : Encoder) (bytes : List Byte) (ph : Phase) (he : s.enc? h = some e) (hb : Emission e bytes ph) :
      ExecEffect s (s.updEnc h (fun p => p.emit s.sinkFallible h e bytes ph))
  | decNew (cap : Option Nat) :
      ExecEffect s { s with decs := s.decs ++ [{ ctx := some (freshDecoder cap), outs := [] }] }
  | encNew (lead : Bool) :
      ExecEffect s { s with encs := s.encs ++ [{ ctx := some (freshEncoder lead), tx := [], outs := [], draws := 0 }] }
  | decReset (h : Handle) (d : Decoder) (hd : s.dec? h = some d) :
      ExecEffect s (s.updDec h (fun p => { p with ctx := some (freshDecoder d.cap) }))
  | encReset (h : Handle) (e : Encoder) (he : s.enc? h = some e) :
      ExecEffect s (s.updEnc h (fun p => { p with ctx := some (freshEncoder e.lead) }))
  | decDrop (h : Handle) (d : Decoder) (hd : s.dec? h = some d) :
      ExecEffect s (s.updDec h (fun p => { p with ctx := none }))
  | encDrop (h : Handle) (e : Encoder) (he : s.enc? h = some e) :
      ExecEffect s (s.updEnc h (fun p => { p with ctx := none }))

theorem encByte_END : encByte Token.END = [Token.ESC, Token.ESC_END] := rfl
theorem encByte_ESC : encByte Token.ESC = [Token.ESC, Token.ESC_ESC] := rfl

theorem encByte_other {b : Byte} (h₁ : b ≠ Token.END) (h₂ : b ≠ Token.ESC) : encByte b = [b] := by
  simp [encByte, h₁, h₂]

/-- The inversion lemma of `exec`: an instruction that completes has one of these effects. -/
theorem exec_effect {i : Instr} {s t : State} (hx : exec i s = .next t) : ExecEffect s t := by
  cases i with
  | decNEndF h =>
    obtain ⟨d, hd, -, hv, rfl⟩ := decRow_cases hx
    simp only [View.selects, view_state, view_bufEmpty, Bool.and_eq_true, beq_iff_eq, Bool.not_eq_true',
      List.isEmpty_eq_false_iff] at hv
    exact .decoder h d _ hd (.delivered hv.1 hv.2)
  | decNEndE h =>
    obtain ⟨d, hd, -, hv, rfl⟩ := decRow_cases hx
    simp only [View.selects, view_state, view_bufEmpty, Bool.and_eq_true, beq_iff_eq, List.isEmpty_iff] at hv
    exact .decoder h d _ hd (.unchanged (.inl hv))
  | decNEsc h =>
    obtain ⟨d, hd, -, hv, rfl⟩ := decRow_cases hx
    exact .decoder h d _ hd (.escaped (by simpa [View.selects] using hv))
  | decNLit h b =>
    obtain ⟨d, hd, -, hv, rfl⟩ := decRow_cases hx
    exact .decoder h d _ hd (.appended b (.inl (by simpa [View.selects] using hv)))
  | decEEscEnd h =>
    obtain ⟨d, hd, -, hv, rfl⟩ := decRow_cases hx
    exact .decoder h d _ hd (.appended _ (.inr (by simpa [View.selects] using hv)))
  | decEEscEsc h =>
    obtain ⟨d, hd, -, hv, rfl⟩ := decRow_cases hx
    exact .decoder h d _ hd (.appended _ (.inr (by simpa [View.selects] using hv)))
  | decEBad h b =>
    obtain ⟨d, hd, -, hv, rfl⟩ := decRow_cases hx
    exact .decoder h d _ hd (.violated (by simpa [View.selects] using hv))
  | decREnd h =>
    obtain ⟨d, hd, -, hv, rfl⟩ := decRow_cases hx
    exact .decoder h d _ hd (.recovered (by simpa [View.selects] using hv))
  | decRSkip h b =>
    obtain ⟨d, hd, -, hv, rfl⟩ := decRow_cases hx
    exact .decoder h d _ hd (.unchanged (.inr (by simpa [View.selects] using hv)))
  | encStart h =>
    obtain ⟨e, he, -, hp, rfl⟩ := encRow_cases hx
    exact .encoder h e _ _ he (.start hp)
  | encDataEnd h =>
    obtain ⟨e, he, -, hp, rfl⟩ := encRow_cases hx
    exact .encoder h e _ _ he (.payload Token.END hp)
  | encDataEsc h =>
    obtain ⟨e, he, -, hp, rfl⟩ := encRow_cases hx
    exact .encoder h e _ _ he (.payload Token.ESC hp)
  | encDataLit h b =>
    obtain ⟨e, he, hw, hp, rfl⟩ := encRow_cases hx
    simp only [Instr.wf, Bool.and_eq_true, bne_iff_ne] at hw
    simpa only [encByte_other hw.1 hw.2] using ExecEffect.encoder h e _ _ he (.payload b hp)
  | encFinish h =>
    obtain ⟨e, he, -, hp, rfl⟩ := encRow_cases hx
    exact .encoder h e _ _ he (.finish hp)
  | decNew cap => cases hx; exact .decNew cap
  | encNew lead => cases hx; exact .encNew lead
  | decReset h =>
    simp only [exec, execDecReset] at hx
    split at hx
    · cases hx
    · rename_i d hd
      cases hx
      exact .decReset h d hd
  | encReset h =>
    simp only [exec, execEncReset] at hx
    split at hx
    · cases hx
    · rename_i e he
      cases hx
      exact .encReset h e he
  | drop c =>
    cases c with
    | dec h =>
      simp only [exec, execDrop] at hx
      split at hx
      · cases hx
      · rename_i d hd
        cases hx
        exact .decDrop h d hd
    | enc h =>
      simp only [exec, execDrop] at hx
      split at hx
      · cases hx
      · rename_i e he
        cases hx
        exact .encDrop h e he

/-! ### The host's pending events -/

/-- An answer with the pending events replaced. -/
def Answer.withInput (a : Answer) (es : List Event) : Answer :=
  match a with
  | .next t => .next { t with input := es }
  | .fault r => .fault r
  | .refused r => .refused r

theorem decRow_withInput (i : Instr) (h : Handle) (tr : Decoder → Decoder × DecOutcome) (s : State) (es : List Event) :
    decRow i h tr { s with input := es } = Answer.withInput (decRow i h tr s) es := by
  simp only [decRow, dec?_withInput]
  cases s.dec? h with
  | none => rfl
  | some d =>
    dsimp only
    split <;> rfl

theorem encRow_withInput (i : Instr) (h : Handle) (pre : Phase) (bytes : Encoder → List Byte) (post : Phase) (s : State)
    (es : List Event) :
    encRow i h pre bytes post { s with input := es } = Answer.withInput (encRow i h pre bytes post s) es := by
  simp only [encRow, enc?_withInput]
  cases s.enc? h with
  | none => rfl
  | some e =>
    dsimp only
    split
    · rfl
    · split <;> rfl

/-- An instruction neither reads nor changes the pending events. -/
theorem exec_withInput (i : Instr) (s : State) (es : List Event) :
    exec i { s with input := es } = Answer.withInput (exec i s) es := by
  cases i with
  | decNEndF _ | decNEndE _ | decNEsc _ | decNLit _ _ | decEEscEnd _ | decEEscEsc _ | decEBad _ _ | decREnd _
  | decRSkip _ _ => exact decRow_withInput _ _ _ s es
  | encStart _ | encDataEnd _ | encDataEsc _ | encDataLit _ _ | encFinish _ => exact encRow_withInput _ _ _ _ _ s es
  | decNew _ | encNew _ => rfl
  | decReset h =>
    simp only [exec, execDecReset, dec?_withInput]
    cases s.dec? h <;> rfl
  | encReset h =>
    simp only [exec, execEncReset, enc?_withInput]
    cases s.enc? h <;> rfl
  | drop c =>
    cases c with
    | dec h =>
      simp only [exec, execDrop, dec?_withInput]
      cases s.dec? h <;> rfl
    | enc h =>
      simp only [exec, execDrop, enc?_withInput]
      cases s.enc? h <;> rfl

/-! ### The step -/

/-- A step with an event pending. -/
theorem step_event {s : State} {e : Event} {rest : List Event} (h : s.input = e :: rest) :
    step s = exec (decode (s.viewFor e) e) { s with input := rest } := by
  simp [step, State.fetch, h]

/-- A step with an event pending is the reaction of the context it names, the rest still pending. -/
theorem step_react {s : State} {e : Event} {rest : List Event} (h : s.input = e :: rest) :
    step s = Answer.withInput (react s e) rest := by
  rw [step_event h, exec_withInput]
  rfl

/-- A step with nothing pending. -/
theorem step_idle {s : State} (h : s.input = []) : step s = .next s := by
  simp [step, State.fetch, h]

/-- What a step that completes did: nothing, or the effect of the event it took. -/
theorem step_effect {s t : State} (hx : step s = .next t) :
    (s.input = [] ∧ t = s) ∨ ∃ e rest, s.input = e :: rest ∧ ExecEffect { s with input := rest } t := by
  cases hi : s.input with
  | nil =>
    rw [step_idle hi] at hx
    cases hx
    exact .inl ⟨rfl, rfl⟩
  | cons e rest =>
    rw [step_event hi] at hx
    exact .inr ⟨e, rest, rfl, exec_effect hx⟩

/-- A step on a placed event is the context's reaction to it. -/
theorem step_pushEvent (s : State) (e : Event) : step (s.pushEvent e) = react s e := by
  rw [step_event (s := s.pushEvent e) (rest := s.input) rfl]
  rfl

/-! ### Reading bytes -/

/-- The view under which a byte is read is the decoder's own. -/
theorem viewFor_byte {s : State} {h : Handle} {d : Decoder} (hd : s.dec? h = some d) (b : Byte) :
    s.viewFor (.byte h b) = d.view := by
  simp [State.viewFor, hd]

theorem byteClass_END : byteClass Token.END = .cEnd := rfl
theorem byteClass_ESC : byteClass Token.ESC = .cEsc := rfl
theorem byteClass_ESC_END : byteClass Token.ESC_END = .cEscEnd := rfl
theorem byteClass_ESC_ESC : byteClass Token.ESC_ESC = .cEscEsc := rfl

theorem byteClass_eq_cEnd {b : Byte} : byteClass b = .cEnd ↔ b = Token.END := by
  unfold byteClass
  split_ifs with h₁ <;> simp_all

theorem byteClass_eq_cEsc {b : Byte} : byteClass b = .cEsc ↔ b = Token.ESC := by
  unfold byteClass
  split_ifs with h₁ <;> simp_all

theorem byteClass_eq_cEscEnd {b : Byte} : byteClass b = .cEscEnd ↔ b = Token.ESC_END := by
  unfold byteClass
  split_ifs with h₁ <;> simp_all

theorem byteClass_eq_cEscEsc {b : Byte} : byteClass b = .cEscEsc ↔ b = Token.ESC_ESC := by
  unfold byteClass
  split_ifs with h₁ <;> simp_all

/-- A byte that is neither END nor ESC is a literal in `Normal` (R104). -/
theorem decodeByte_literal {b : Byte} (h₁ : b ≠ Token.END) (h₂ : b ≠ Token.ESC) (empty : Bool) (h : Handle) :
    decodeByte { state := .normal, bufEmpty := empty } h b = .decNLit h b := by
  have h₃ := mt byteClass_eq_cEnd.1 h₁
  have h₄ := mt byteClass_eq_cEsc.1 h₂
  unfold decodeByte
  cases hc : byteClass b <;> simp_all

/-- A byte that is neither code is a violation in `Escaping` (R107). -/
theorem decodeByte_bad {b : Byte} (h₁ : b ≠ Token.ESC_END) (h₂ : b ≠ Token.ESC_ESC) (empty : Bool) (h : Handle) :
    decodeByte { state := .escaping, bufEmpty := empty } h b = .decEBad h b := by
  have h₃ := mt byteClass_eq_cEscEnd.1 h₁
  have h₄ := mt byteClass_eq_cEscEsc.1 h₂
  unfold decodeByte
  cases hc : byteClass b <;> simp_all

/-- A byte that is not END is skipped in `ErrorRecovery` (R109). -/
theorem decodeByte_skip {b : Byte} (h₁ : b ≠ Token.END) (empty : Bool) (h : Handle) :
    decodeByte { state := .errorRecovery, bufEmpty := empty } h b = .decRSkip h b := by
  have h₂ := mt byteClass_eq_cEnd.1 h₁
  unfold decodeByte
  cases hc : byteClass b <;> simp_all

/-- A payload byte that is neither END nor ESC is a literal (R83). -/
theorem decodeData_literal {b : Byte} (h₁ : b ≠ Token.END) (h₂ : b ≠ Token.ESC) (h : Handle) :
    decodeData h b = .encDataLit h b := by
  have h₃ := mt byteClass_eq_cEnd.1 h₁
  have h₄ := mt byteClass_eq_cEsc.1 h₂
  unfold decodeData
  cases hc : byteClass b <;> simp_all

end Sys2Proof.Machine
end

