-- ==== Sys2Proof/Laws/Decoder.lean ====
section
/-! SUPPORT. What the decoder's step function does on each kind of byte, and how runs of byte steps compose. -/

namespace Sys2Proof.Machine

/-! ### Single steps -/

section
variable (buf : List Byte) (cap : Option Nat)

theorem decStep_normal_END_nonempty (h : buf ≠ []) :
    decStep ⟨.normal, buf, cap⟩ Token.END = (⟨.normal, [], cap⟩, .frame buf) := by
  simp [decStep, h, bufClear]

@[simp] theorem decStep_normal_END_empty :
    decStep ⟨.normal, [], cap⟩ Token.END = (⟨.normal, [], cap⟩, .noFrame) := rfl

@[simp] theorem decStep_normal_ESC :
    decStep ⟨.normal, buf, cap⟩ Token.ESC = (⟨.escaping, buf, cap⟩, .noFrame) := rfl

theorem decStep_normal_literal {b : Byte} (h₁ : b ≠ Token.END) (h₂ : b ≠ Token.ESC) :
    decStep ⟨.normal, buf, cap⟩ b = tryAppend ⟨.normal, buf, cap⟩ b := by
  simp [decStep, h₁, h₂]

@[simp] theorem decStep_escaping_ESC_END :
    decStep ⟨.escaping, buf, cap⟩ Token.ESC_END = tryAppend ⟨.escaping, buf, cap⟩ Token.END := rfl

@[simp] theorem decStep_escaping_ESC_ESC :
    decStep ⟨.escaping, buf, cap⟩ Token.ESC_ESC = tryAppend ⟨.escaping, buf, cap⟩ Token.ESC := rfl

theorem decStep_escaping_bad {b : Byte} (h₁ : b ≠ Token.ESC_END) (h₂ : b ≠ Token.ESC_ESC) :
    decStep ⟨.escaping, buf, cap⟩ b = (⟨.errorRecovery, buf, cap⟩, .err .framingError) := by
  simp [decStep, h₁, h₂]

@[simp] theorem decStep_recovery_END :
    decStep ⟨.errorRecovery, buf, cap⟩ Token.END = (⟨.normal, [], cap⟩, .noFrame) := rfl

theorem decStep_recovery_skip {b : Byte} (h : b ≠ Token.END) :
    decStep ⟨.errorRecovery, buf, cap⟩ b = (⟨.errorRecovery, buf, cap⟩, .noFrame) := by
  simp [decStep, h]

end

/-- No byte changes the bound of a decoder (R23). -/
@[simp] theorem decStep_cap (d : Decoder) (b : Byte) : (decStep d b).1.cap = d.cap := by
  obtain ⟨st, buf, cap⟩ := d
  cases st <;> simp only [decStep] <;> split_ifs <;> simp

/-! ### Runs -/

@[simp] theorem decRun_nil (d : Decoder) : decRun [] d = ([], d) := rfl

theorem decRun_cons (b : Byte) (bs : List Byte) (d : Decoder) :
    decRun (b :: bs) d = ((decStep d b).2 :: (decRun bs (decStep d b).1).1, (decRun bs (decStep d b).1).2) := rfl

/-- A run is its first part and then the rest from where that ends. -/
theorem decRun_append (xs ys : List Byte) (d : Decoder) :
    decRun (xs ++ ys) d = ((decRun xs d).1 ++ (decRun ys (decRun xs d).2).1, (decRun ys (decRun xs d).2).2) := by
  induction xs generalizing d with
  | nil => rfl
  | cons b bs ih => simp [decRun_cons, ih]

/-- One outcome for each byte. -/
@[simp] theorem decRun_length (bs : List Byte) (d : Decoder) : (decRun bs d).1.length = bs.length := by
  induction bs generalizing d with
  | nil => rfl
  | cons b bs ih => simp [decRun_cons, ih]

@[simp] theorem decRun_cap (bs : List Byte) (d : Decoder) : (decRun bs d).2.cap = d.cap := by
  induction bs generalizing d with
  | nil => rfl
  | cons b bs ih => simp [decRun_cons, ih]

@[simp] theorem reports_nil : reports [] = [] := rfl

@[simp] theorem reports_append (xs ys : List DecOutcome) : reports (xs ++ ys) = reports xs ++ reports ys := by
  simp [reports]

@[simp] theorem reports_cons_noFrame (xs : List DecOutcome) : reports (.noFrame :: xs) = reports xs := by
  simp [reports]

theorem reports_cons_of_ne {o : DecOutcome} (h : o ≠ .noFrame) (xs : List DecOutcome) : reports (o :: xs) = o :: reports xs := by
  simp [reports, h]

/-! ### The wire form of payload bytes -/

/-- The wire bytes of one payload byte, where it fits, append exactly that byte and report nothing (R104 to R106). -/
theorem decRun_encByte_room {buf : List Byte} {cap : Option Nat} (hc : FitsBound cap (buf.length + 1)) (b : Byte) :
    reports (decRun (encByte b) ⟨.normal, buf, cap⟩).1 = [] ∧
      (decRun (encByte b) ⟨.normal, buf, cap⟩).2 = ⟨.normal, buf ++ [b], cap⟩ := by
  by_cases h₁ : b = Token.END
  · subst h₁
    simp [encByte_END, decRun_cons, tryAppend_below (d := ⟨.escaping, buf, cap⟩) hc]
  · by_cases h₂ : b = Token.ESC
    · subst h₂
      simp [encByte_ESC, decRun_cons, tryAppend_below (d := ⟨.escaping, buf, cap⟩) hc]
    · simp [encByte_other h₁ h₂, decRun_cons, decStep_normal_literal _ _ h₁ h₂,
        tryAppend_below (d := ⟨.normal, buf, cap⟩) hc]

/-- The wire bytes of one payload byte, where the buffer is full, raise `OversizedPacket` once (R142). -/
theorem decRun_encByte_full {buf : List Byte} (b : Byte) :
    reports (decRun (encByte b) ⟨.normal, buf, some buf.length⟩).1 = [.err .oversizedPacket] ∧
      (decRun (encByte b) ⟨.normal, buf, some buf.length⟩).2 = ⟨.errorRecovery, buf, some buf.length⟩ := by
  by_cases h₁ : b = Token.END
  · subst h₁
    simp [encByte_END, decRun_cons, tryAppend_full (d := ⟨.escaping, buf, some buf.length⟩) rfl, reports]
  · by_cases h₂ : b = Token.ESC
    · subst h₂
      simp [encByte_ESC, decRun_cons, tryAppend_full (d := ⟨.escaping, buf, some buf.length⟩) rfl, reports]
    · simp [encByte_other h₁ h₂, decRun_cons, decStep_normal_literal _ _ h₁ h₂,
        tryAppend_full (d := ⟨.normal, buf, some buf.length⟩) rfl, reports]

/-- A stuffed body that fits is accumulated whole and reports nothing. -/
theorem decRun_body {f buf : List Byte} {cap : Option Nat} (hc : FitsBound cap (buf.length + f.length)) :
    reports (decRun (f.flatMap encByte) ⟨.normal, buf, cap⟩).1 = [] ∧
      (decRun (f.flatMap encByte) ⟨.normal, buf, cap⟩).2 = ⟨.normal, buf ++ f, cap⟩ := by
  induction f generalizing buf with
  | nil => simp
  | cons b bs ih =>
    have h₁ := decRun_encByte_room (b := b) (buf := buf) (cap := cap)
      (fun c hb => by have := hc c hb; simp only [List.length_cons] at this; omega)
    have h₂ := ih (buf := buf ++ [b])
      (fun c hb => by have := hc c hb; simp only [List.length_cons, List.length_append, List.length_nil] at this ⊢; omega)
    simp only [List.flatMap_cons, decRun_append, reports_append, h₁, h₂, List.append_assoc, List.singleton_append,
      List.nil_append, and_self]

/-- The stuffed body holds no END (R89 b). -/
theorem END_not_mem_encByte (b : Byte) : Token.END ∉ encByte b := by
  by_cases h₁ : b = Token.END
  · subst h₁
    decide
  · by_cases h₂ : b = Token.ESC
    · subst h₂
      decide
    · simp [encByte_other h₁ h₂, Ne.symm h₁]

theorem END_not_mem_body (f : List Byte) : Token.END ∉ f.flatMap encByte := by
  simp only [List.mem_flatMap, not_exists, not_and]
  exact fun b _ => END_not_mem_encByte b

/-- In recovery, bytes that hold no END change nothing and report nothing. -/
theorem decRun_recovery {bs : List Byte} (h : Token.END ∉ bs) (buf : List Byte) (cap : Option Nat) :
    reports (decRun bs ⟨.errorRecovery, buf, cap⟩).1 = [] ∧
      (decRun bs ⟨.errorRecovery, buf, cap⟩).2 = ⟨.errorRecovery, buf, cap⟩ := by
  induction bs with
  | nil => simp
  | cons b bs ih =>
    simp only [List.mem_cons, not_or] at h
    simp [decRun_cons, decStep_recovery_skip _ _ (Ne.symm h.1), ih h.2]

end Sys2Proof.Machine
end

