-- ==== Sys2Proof/Laws/PerInstr.lean ====
section
/-! SUPPORT. One family of statements about instructions as syntax: the event of a well-formed instruction fits the row of
the opcode table that the instruction stands for (R66, R73). -/

namespace Sys2Proof.Laws.RowMatch

/-- The table lists the instruction's row, in the format of its event; the event's byte, where it has one, fits the row's
`match`, `mask` and `excludes`; and a view that selects the instruction is in the row's state. -/
def Statement (i : Instr) : Prop :=
  i.wf = true →
    ∃ r ∈ opcodeTable, r.name = i.rowName ∧ r.format = (encode i).format ∧
      (∀ b, (encode i).byteField = some b → r.fits b = true) ∧
      (∀ st, r.state = some st → ∀ v : View, v.selects i = true → v.state = st)

/-- A default row fits every byte it does not exclude. -/
theorem default_fits {r : Row} {b : Byte} (hm : r.mask = 0x00#8) (hp : r.pattern = 0x00#8) (hx : b ∉ r.excludes) :
    r.fits b = true := by
  simp [Row.fits, hm, hp, hx]

theorem decNEndF (h : Handle) : Statement (.decNEndF h) := fun _ =>
  ⟨⟨.decNEndF, .byte, 0xC0#8, 0xFF#8, some .normal, some false, []⟩, by decide, rfl, rfl,
    fun _ hb => (by cases hb; decide), fun _ hs v hv => by cases hs; simp [View.selects] at hv; exact hv.1⟩

theorem decNEndE (h : Handle) : Statement (.decNEndE h) := fun _ =>
  ⟨⟨.decNEndE, .byte, 0xC0#8, 0xFF#8, some .normal, some true, []⟩, by decide, rfl, rfl,
    fun _ hb => (by cases hb; decide), fun _ hs v hv => by cases hs; simp [View.selects] at hv; exact hv.1⟩

theorem decNEsc (h : Handle) : Statement (.decNEsc h) := fun _ =>
  ⟨⟨.decNEsc, .byte, 0xDB#8, 0xFF#8, some .normal, none, []⟩, by decide, rfl, rfl,
    fun _ hb => (by cases hb; decide), fun _ hs v hv => by cases hs; simpa [View.selects] using hv⟩

theorem decNLit (h : Handle) (b : Byte) : Statement (.decNLit h b) := fun hw =>
  ⟨⟨.decNLit, .byte, 0x00#8, 0x00#8, some .normal, none, [0xC0#8, 0xDB#8]⟩, by decide, rfl, rfl,
    fun _ hb => (by cases hb; exact default_fits rfl rfl (by simpa [Instr.wf] using hw)),
    fun _ hs v hv => by cases hs; simpa [View.selects] using hv⟩

theorem decEEscEnd (h : Handle) : Statement (.decEEscEnd h) := fun _ =>
  ⟨⟨.decEEscEnd, .byte, 0xDC#8, 0xFF#8, some .escaping, none, []⟩, by decide, rfl, rfl,
    fun _ hb => (by cases hb; decide), fun _ hs v hv => by cases hs; simpa [View.selects] using hv⟩

theorem decEEscEsc (h : Handle) : Statement (.decEEscEsc h) := fun _ =>
  ⟨⟨.decEEscEsc, .byte, 0xDD#8, 0xFF#8, some .escaping, none, []⟩, by decide, rfl, rfl,
    fun _ hb => (by cases hb; decide), fun _ hs v hv => by cases hs; simpa [View.selects] using hv⟩

theorem decEBad (h : Handle) (b : Byte) : Statement (.decEBad h b) := fun hw =>
  ⟨⟨.decEBad, .byte, 0x00#8, 0x00#8, some .escaping, none, [0xDC#8, 0xDD#8]⟩, by decide, rfl, rfl,
    fun _ hb => (by cases hb; exact default_fits rfl rfl (by simpa [Instr.wf] using hw)),
    fun _ hs v hv => by cases hs; simpa [View.selects] using hv⟩

theorem decREnd (h : Handle) : Statement (.decREnd h) := fun _ =>
  ⟨⟨.decREnd, .byte, 0xC0#8, 0xFF#8, some .errorRecovery, none, []⟩, by decide, rfl, rfl,
    fun _ hb => (by cases hb; decide), fun _ hs v hv => by cases hs; simpa [View.selects] using hv⟩

theorem decRSkip (h : Handle) (b : Byte) : Statement (.decRSkip h b) := fun hw =>
  ⟨⟨.decRSkip, .byte, 0x00#8, 0x00#8, some .errorRecovery, none, [0xC0#8]⟩, by decide, rfl, rfl,
    fun _ hb => (by cases hb; exact default_fits rfl rfl (by simpa [Instr.wf] using hw)),
    fun _ hs v hv => by cases hs; simpa [View.selects] using hv⟩

theorem encStart (h : Handle) : Statement (.encStart h) := fun _ =>
  ⟨⟨.encStart, .encCtl, 0x00#8, 0x00#8, none, none, []⟩, by decide, rfl, rfl, fun _ hb => (by cases hb), fun _ hs => (by cases hs)⟩

theorem encDataEnd (h : Handle) : Statement (.encDataEnd h) := fun _ =>
  ⟨⟨.encDataEnd, .encData, 0xC0#8, 0xFF#8, none, none, []⟩, by decide, rfl, rfl,
    fun _ hb => (by cases hb; decide), fun _ hs => by cases hs⟩

theorem encDataEsc (h : Handle) : Statement (.encDataEsc h) := fun _ =>
  ⟨⟨.encDataEsc, .encData, 0xDB#8, 0xFF#8, none, none, []⟩, by decide, rfl, rfl,
    fun _ hb => (by cases hb; decide), fun _ hs => by cases hs⟩

theorem encDataLit (h : Handle) (b : Byte) : Statement (.encDataLit h b) := fun hw =>
  ⟨⟨.encDataLit, .encData, 0x00#8, 0x00#8, none, none, [0xC0#8, 0xDB#8]⟩, by decide, rfl, rfl,
    fun _ hb => (by cases hb; exact default_fits rfl rfl (by simpa [Instr.wf] using hw)), fun _ hs => by cases hs⟩

theorem encFinish (h : Handle) : Statement (.encFinish h) := fun _ =>
  ⟨⟨.encFinish, .encCtl, 0x00#8, 0x00#8, none, none, []⟩, by decide, rfl, rfl, fun _ hb => (by cases hb), fun _ hs => (by cases hs)⟩

theorem decNew (cap : Option Nat) : Statement (.decNew cap) := fun _ =>
  ⟨⟨.decNew, .host, 0x00#8, 0x00#8, none, none, []⟩, by decide, rfl, rfl, fun _ hb => (by cases hb), fun _ hs => (by cases hs)⟩

theorem encNew (lead : Bool) : Statement (.encNew lead) := fun _ =>
  ⟨⟨.encNew, .host, 0x00#8, 0x00#8, none, none, []⟩, by decide, rfl, rfl, fun _ hb => (by cases hb), fun _ hs => (by cases hs)⟩

theorem decReset (h : Handle) : Statement (.decReset h) := fun _ =>
  ⟨⟨.decReset, .host, 0x00#8, 0x00#8, none, none, []⟩, by decide, rfl, rfl, fun _ hb => (by cases hb), fun _ hs => (by cases hs)⟩

theorem encReset (h : Handle) : Statement (.encReset h) := fun _ =>
  ⟨⟨.encReset, .host, 0x00#8, 0x00#8, none, none, []⟩, by decide, rfl, rfl, fun _ hb => (by cases hb), fun _ hs => (by cases hs)⟩

theorem drop (c : Ctx) : Statement (.drop c) := fun _ =>
  ⟨⟨.drop, .host, 0x00#8, 0x00#8, none, none, []⟩, by decide, rfl, rfl, fun _ hb => (by cases hb), fun _ hs => (by cases hs)⟩

end Sys2Proof.Laws.RowMatch
end

