-- ==== Sys2Proof/Laws/Run.lean ====
section
/-! SUPPORT. What one encoder event does to an encoder that exists, and how the events of an `Encode` in progress compose. -/

namespace Sys2Proof.Machine

/-! ### Reactions of an encoder -/

theorem react_start {s : State} {h : Handle} {e : Encoder} (he : s.enc? h = some e) (hp : e.phase = .idle) :
    react s (.start h) = .next (s.updEnc h (fun p => p.emit s.sinkFallible h e (leadBytes e.lead) .inFrame)) :=
  encRow_next (i := .encStart h) he rfl hp

theorem react_finish {s : State} {h : Handle} {e : Encoder} (he : s.enc? h = some e) (hp : e.phase = .inFrame) :
    react s (.finish h) = .next (s.updEnc h (fun p => p.emit s.sinkFallible h e [Token.END] .idle)) :=
  encRow_next (i := .encFinish h) he rfl hp

/-- Whatever the payload byte, its event emits `EncByte` of it (R81 to R83, R85). -/
theorem react_data {s : State} {h : Handle} {e : Encoder} (he : s.enc? h = some e) (hp : e.phase = .inFrame) (b : Byte) :
    react s (.data h b) = .next (s.updEnc h (fun p => p.emit s.sinkFallible h e (encByte b) .inFrame)) := by
  by_cases h₁ : b = Token.END
  · subst h₁
    exact encRow_next (i := .encDataEnd h) he rfl hp
  · by_cases h₂ : b = Token.ESC
    · subst h₂
      exact encRow_next (i := .encDataEsc h) he rfl hp
    · have hx : react s (.data h b) = execEncDataLit h b s := by simp [react, decode, decodeData_literal h₁ h₂, exec]
      rw [hx, encByte_other h₁ h₂]
      exact encRow_next (i := .encDataLit h b) he (by simp [Instr.wf, h₁, h₂]) hp

/-! ### The events of an `Encode` in progress -/

@[simp] theorem prepend_emitted (ws bs : List Byte) : (EncOutcome.emitted bs).prepend ws = .emitted (ws ++ bs) := rfl
@[simp] theorem prepend_errIo (ws bs : List Byte) : (EncOutcome.errIo bs).prepend ws = .errIo (ws ++ bs) := rfl
@[simp] theorem prepend_written (ws : List Byte) (o : EncOutcome) : (o.prepend ws).written = ws ++ o.written := by
  cases o <;> rfl

@[simp] theorem issueEncode_nil (h : Handle) (s : State) : issueEncode h [] s = some (.emitted [], s) := rfl

/-- An event whose write succeeds goes before the rest. -/
theorem issueEncode_emitted {h : Handle} {e : Event} {s t : State} {ws : List Byte} (hx : react s e = .next t)
    (ho : t.lastEncOutcome h = .emitted ws) (es : List Event) :
    issueEncode h (e :: es) s = (issueEncode h es t).map (fun r => (r.1.prepend ws, r.2)) := by
  simp [issueEncode, hx, ho]

/-- An event whose write fails is the last one (R91). -/
theorem issueEncode_errIo {h : Handle} {e : Event} {s t : State} {ws : List Byte} (hx : react s e = .next t)
    (ho : t.lastEncOutcome h = .errIo ws) (es : List Event) : issueEncode h (e :: es) s = some (.errIo ws, t) := by
  simp [issueEncode, hx, ho]

/-- Encoder `h` took some steps of a frame that wrote `ws`, with the outcomes `outs`, to the context `e`, and nothing else
changed. -/
structure EncRan (h : Handle) (s t : State) (e : Encoder) (ws : List Byte) (outs : List EncOutcome) : Prop where
  enc : t.enc? h = some e
  tx : t.tx h = s.tx h ++ ws
  outs : t.encOuts h = s.encOuts h ++ outs
  only : OnlyEnc h s t

theorem EncRan.trans {h : Handle} {s t u : State} {e e' : Encoder} {ws ws' : List Byte} {os os' : List EncOutcome}
    (h₁ : EncRan h s t e ws os) (h₂ : EncRan h t u e' ws' os') : EncRan h s u e' (ws ++ ws') (os ++ os') where
  enc := h₂.enc
  tx := by rw [h₂.tx, h₁.tx, List.append_assoc]
  outs := by rw [h₂.outs, h₁.outs, List.append_assoc]
  only :=
    { decs := h₂.only.decs.trans h₁.only.decs
      input := h₂.only.input.trans h₁.only.input
      sink := h₂.only.sink.trans h₁.only.sink
      count := h₂.only.count.trans h₁.only.count
      others := fun k hk => (h₂.only.others k hk).trans (h₁.only.others k hk) }

/-- The latest outcome after a step is that step's. -/
theorem EncRan.last {h : Handle} {s t : State} {e : Encoder} {ws : List Byte} {o : EncOutcome} (hr : EncRan h s t e ws [o]) :
    t.lastEncOutcome h = o := by
  simp [State.lastEncOutcome, hr.outs]

/-- One `Emit`, whatever the sink: it succeeds, or it fails with a leading part of the bytes before the last one written. -/
theorem emit_ran {s : State} {h : Handle} {e : Encoder} (he : s.enc? h = some e) (bytes : List Byte) (ph : Phase) :
    EncRan h s (s.updEnc h (fun p => p.emit s.sinkFallible h e bytes ph)) { e with phase := ph } bytes [.emitted bytes] ∨
      s.sinkFallible = true ∧ ∃ w, w <+: bytes.dropLast ∧
        EncRan h s (s.updEnc h (fun p => p.emit s.sinkFallible h e bytes ph)) { e with phase := .idle } w [.errIo w] := by
  obtain ⟨p, hp, -⟩ := enc?_eq_some.1 he
  have hx := updEnc_port_self (f := fun p => p.emit s.sinkFallible h e bytes ph) hp
  have ran : ∀ {q : EncPort} {e' w o}, p.emit s.sinkFallible h e bytes ph = q → q.ctx = some e' → q.tx = p.tx ++ w →
      q.outs = p.outs ++ [o] → EncRan h s (s.updEnc h (fun p => p.emit s.sinkFallible h e bytes ph)) e' w [o] := by
    intro q e' w o hq h₁ h₂ h₃
    rw [hq] at hx
    exact ⟨by simp [State.enc?, hx, h₁, -updEnc_encs], by simp [State.tx, hx, hp, h₂, -updEnc_encs],
      by simp [State.encOuts, hx, hp, h₃, -updEnc_encs], onlyEnc_updEnc s h _⟩
  cases hs : s.sinkFallible with
  | false => rw [hs] at ran; exact .inl (ran (emit_infallible p h e bytes ph) rfl rfl rfl)
  | true =>
    rw [hs] at ran
    obtain hq | ⟨w, hw, hq⟩ := emit_fallible p h e bytes ph
    · exact .inl (ran hq rfl rfl rfl)
    · exact .inr ⟨rfl, w, hw, ran hq rfl rfl rfl⟩

/-! ### The call against the machine's own steps -/

/-- An `Encode` that writes its whole frame is what its events do when they are pending: one step each. -/
theorem issueEncode_steps {h : Handle} (es : List Event) {s t : State} {ws : List Byte} (rest : List Event)
    (hi : issueEncode h es s = some (.emitted ws, t)) :
    steps es.length { s with input := es ++ rest } = .next { t with input := rest } := by
  induction es generalizing s ws with
  | nil => cases hi; rfl
  | cons e es ih =>
    have hst : step { s with input := (e :: es) ++ rest } = Answer.withInput (react s e) (es ++ rest) := by
      rw [step_event (s := { s with input := (e :: es) ++ rest }) rfl]
      rw [viewFor_withInput]
      exact exec_withInput _ s _
    simp only [issueEncode] at hi
    cases hx : react s e with
    | next u =>
      rw [hx] at hi hst
      cases ho : u.lastEncOutcome h with
      | emitted vs =>
        simp only [ho, Option.map_eq_some_iff] at hi
        obtain ⟨⟨o, t'⟩, h₁, h₂⟩ := hi
        cases o with
        | emitted bs =>
          obtain ⟨-, rfl⟩ : _ ∧ t' = t := by simpa using h₂
          simp only [steps, List.length_cons, hst]
          exact ih h₁
        | errIo bs => simp at h₂
      | errIo vs => simp [ho] at hi
    | fault r => simp [hx] at hi
    | refused r => simp [hx] at hi

end Sys2Proof.Machine
end

