-- ==== Sys2Proof/Tests/Slice0.lean ====
section
/-! SUPPORT. Tests from the spec's vectors (95_test_vectors.md) and words written out from its encodings, and for every
statement with hypotheses a state and operands that meet them. -/

namespace Sys2Proof.Tests

open Sys2Proof Sys2Proof.Machine

/-- A machine with one decoder. -/
def oneDec (st : ParseState) (buf : List Byte) (cap : Option Nat) : State :=
  { decs := [{ ctx := some ⟨st, buf, cap⟩, outs := [] }], encs := [], input := [], sinkFallible := false }

/-- A machine with one encoder that has emitted `tx`. -/
def oneEnc (lead : Bool) (ph : Phase) (tx : List Byte := []) (fallible : Bool := false) : State :=
  { decs := [], encs := [{ ctx := some ⟨lead, ph⟩, tx := tx, outs := [], draws := 0 }], input := [], sinkFallible := fallible }

/-- The state after an event, if it completes. -/
def after (a : Answer) : Option State :=
  match a with
  | .next t => some t
  | .fault _ => none
  | .refused _ => none

/-- Why an event was refused. -/
def why (a : Answer) : Option Refusal :=
  match a with
  | .next _ => none
  | .fault _ => none
  | .refused r => some r

/-- What a byte does to the one decoder: its context after, and its outcome. -/
def onByte (st : ParseState) (buf : List Byte) (cap : Option Nat) (b : Byte) : Option (List DecPort) :=
  (after (react (oneDec st buf cap) (.byte 0 b))).map (·.decs)

/-- The port a vector expects. -/
def port (st : ParseState) (buf : List Byte) (cap : Option Nat) (o : DecOutcome) : Option (List DecPort) :=
  some [{ ctx := some ⟨st, buf, cap⟩, outs := [o] }]

/-! ### Well-formedness: an ill-formed term for each check -/

theorem test_wf_literal_not_END : (Instr.decNLit 0 0xC0#8).wf = false := by decide
theorem test_wf_literal_not_ESC : (Instr.decNLit 0 0xDB#8).wf = false := by decide
theorem test_wf_literal_code_is_ordinary : (Instr.decNLit 0 0xDC#8).wf = true := by decide
theorem test_wf_bad_not_ESC_END : (Instr.decEBad 0 0xDC#8).wf = false := by decide
theorem test_wf_bad_not_ESC_ESC : (Instr.decEBad 0 0xDD#8).wf = false := by decide
theorem test_wf_skip_not_END : (Instr.decRSkip 0 0xC0#8).wf = false := by decide
theorem test_wf_payload_not_END : (Instr.encDataLit 0 0xC0#8).wf = false := by decide
theorem test_wf_payload_not_ESC : (Instr.encDataLit 0 0xDB#8).wf = false := by decide

/-! ### Decoding: every constructor, from a word written out from R60 to R66 -/

theorem test_decode_decNEndF : decode ⟨.normal, false⟩ (.byte 3 0b11000000#8) = .decNEndF 3 := by decide
theorem test_decode_decNEndE : decode ⟨.normal, true⟩ (.byte 3 0b11000000#8) = .decNEndE 3 := by decide
theorem test_decode_decNEsc : decode ⟨.normal, false⟩ (.byte 3 0b11011011#8) = .decNEsc 3 := by decide
theorem test_decode_decNLit : decode ⟨.normal, false⟩ (.byte 3 0b11011101#8) = .decNLit 3 0xDD#8 := by decide
theorem test_decode_decEEscEnd : decode ⟨.escaping, false⟩ (.byte 3 0b11011100#8) = .decEEscEnd 3 := by decide
theorem test_decode_decEEscEsc : decode ⟨.escaping, false⟩ (.byte 3 0b11011101#8) = .decEEscEsc 3 := by decide
theorem test_decode_decEBad : decode ⟨.escaping, false⟩ (.byte 3 0b11011011#8) = .decEBad 3 0xDB#8 := by decide
theorem test_decode_decREnd : decode ⟨.errorRecovery, false⟩ (.byte 3 0b11000000#8) = .decREnd 3 := by decide
theorem test_decode_decRSkip : decode ⟨.errorRecovery, false⟩ (.byte 3 0b11011100#8) = .decRSkip 3 0xDC#8 := by decide
theorem test_decode_encStart : decode View.fresh (.start 1) = .encStart 1 := by decide
theorem test_decode_encDataEnd : decode View.fresh (.data 1 0b11000000#8) = .encDataEnd 1 := by decide
theorem test_decode_encDataEsc : decode View.fresh (.data 1 0b11011011#8) = .encDataEsc 1 := by decide
theorem test_decode_encDataLit : decode View.fresh (.data 1 0b11011100#8) = .encDataLit 1 0xDC#8 := by decide
theorem test_decode_encFinish : decode View.fresh (.finish 1) = .encFinish 1 := by decide
theorem test_decode_decNew : decode View.fresh (.decNew (some 1006)) = .decNew (some 1006) := by decide
theorem test_decode_encNew : decode View.fresh (.encNew true) = .encNew true := by decide
theorem test_decode_decReset : decode View.fresh (.decReset 2) = .decReset 2 := by decide
theorem test_decode_encReset : decode View.fresh (.encReset 2) = .encReset 2 := by decide
theorem test_decode_drop : decode View.fresh (.drop (.dec 2)) = .drop (.dec 2) := by decide

/-- The words of the 0xFF rows, as the host asks for them. -/
theorem test_table_words :
    [decodeTableWord 8 0xC0, decodeTableWord 8 0xDB, decodeTableWord 8 0xDC, decodeTableWord 8 0xDD, decodeTableWord 16 0xC0]
      = [some (.decNEndE 0), some (.decNEsc 0), some (.decEEscEnd 0), some (.decEEscEsc 0), none] := by decide

/-- A placed word runs as the first instruction after reset. -/
theorem test_placed_word_runs :
    (after (step (State.reset.withFetchWord 8 0xDC))).map (·.decs) = port .normal [0xC0#8] none .noFrame := by decide

/-! ### The decoder: V-T vectors -/

theorem test_T1 : onByte .normal [0x01#8, 0x02#8] none 0xC0#8 = port .normal [] none (.frame [0x01#8, 0x02#8]) := by decide
theorem test_T10 : onByte .normal [0x01#8, 0x02#8] (some 2) 0xC0#8 = port .normal [] (some 2) (.frame [0x01#8, 0x02#8]) := by decide
theorem test_T2 : onByte .normal [] none 0xC0#8 = port .normal [] none .noFrame := by decide
theorem test_T25 : onByte .normal [] (some 0) 0xC0#8 = port .normal [] (some 0) .noFrame := by decide
theorem test_T3 : onByte .normal [0x01#8] none 0xDB#8 = port .escaping [0x01#8] none .noFrame := by decide
theorem test_T4 : onByte .normal [0x01#8, 0x02#8] (some 2) 0xDB#8 = port .escaping [0x01#8, 0x02#8] (some 2) .noFrame := by decide
theorem test_T6 : onByte .normal [0x41#8] none 0xDC#8 = port .normal [0x41#8, 0xDC#8] none .noFrame := by decide
theorem test_T8 : onByte .normal [0x01#8, 0x02#8] (some 2) 0x03#8
    = port .errorRecovery [0x01#8, 0x02#8] (some 2) (.err .oversizedPacket) := by decide
theorem test_T11 : onByte .escaping [0x01#8] none 0xDC#8 = port .normal [0x01#8, 0xC0#8] none .noFrame := by decide
theorem test_T12 : onByte .escaping [0x01#8] (some 1) 0xDC#8
    = port .errorRecovery [0x01#8] (some 1) (.err .oversizedPacket) := by decide
theorem test_T13 : onByte .escaping [0x01#8] none 0xDD#8 = port .normal [0x01#8, 0xDB#8] none .noFrame := by decide
theorem test_T14 : onByte .escaping [0x01#8] (some 1) 0xDD#8
    = port .errorRecovery [0x01#8] (some 1) (.err .oversizedPacket) := by decide
theorem test_T16 : onByte .escaping [0x01#8] none 0xC0#8 = port .errorRecovery [0x01#8] none (.err .framingError) := by decide
theorem test_T18 : onByte .escaping [0x01#8] (some 1) 0x00#8
    = port .errorRecovery [0x01#8] (some 1) (.err .framingError) := by decide
theorem test_T19 : onByte .errorRecovery [0x01#8] none 0xC0#8 = port .normal [] none .noFrame := by decide
theorem test_T20 : onByte .errorRecovery [] none 0xC0#8 = port .normal [] none .noFrame := by decide
theorem test_T22 : onByte .errorRecovery [0x01#8] none 0xDB#8 = port .errorRecovery [0x01#8] none .noFrame := by decide
theorem test_T23 : onByte .errorRecovery [0x01#8] none 0xDC#8 = port .errorRecovery [0x01#8] none .noFrame := by decide

/-! ### The encoder: P1 and V-E vectors -/

/-- What an event does to the one encoder: its context and its stream after. -/
def onEnc (lead : Bool) (ph : Phase) (tx : List Byte) (e : Event) : Option (List (Option Encoder × List Byte)) :=
  (after (react (oneEnc lead ph tx) e)).map (fun t => t.encs.map (fun p => (p.ctx, p.tx)))

theorem test_E13_start : onEnc true .idle [] (.start 0) = some [(some ⟨true, .inFrame⟩, [0xC0#8])] := by decide
theorem test_start_without_lead : onEnc false .idle [] (.start 0) = some [(some ⟨false, .inFrame⟩, [])] := by decide
theorem test_P1_end : onEnc true .inFrame [0xC0#8, 0x01#8] (.data 0 0xC0#8)
    = some [(some ⟨true, .inFrame⟩, [0xC0#8, 0x01#8, 0xDB#8, 0xDC#8])] := by decide
theorem test_P1_esc : onEnc true .inFrame [] (.data 0 0xDB#8) = some [(some ⟨true, .inFrame⟩, [0xDB#8, 0xDD#8])] := by decide
theorem test_P1_literal : onEnc true .inFrame [] (.data 0 0x7E#8) = some [(some ⟨true, .inFrame⟩, [0x7E#8])] := by decide
theorem test_code_is_not_escaped : onEnc true .inFrame [] (.data 0 0xDD#8) = some [(some ⟨true, .inFrame⟩, [0xDD#8])] := by decide
theorem test_P1_finish : onEnc true .inFrame [0xC0#8] (.finish 0) = some [(some ⟨true, .idle⟩, [0xC0#8, 0xC0#8])] := by decide
theorem test_E14_data_in_idle : why (react (oneEnc true .idle) (.data 0 0x01#8)) = some .encoderEventOrder := by decide
theorem test_E15_finish_in_idle : why (react (oneEnc true .idle) (.finish 0)) = some .encoderEventOrder := by decide
theorem test_E16_start_in_frame : why (react (oneEnc true .inFrame) (.start 0)) = some .encoderEventOrder := by decide
theorem test_E5_frame : encodeFrame true [0xC0#8, 0xDB#8] = [0xC0#8, 0xDB#8, 0xDC#8, 0xDB#8, 0xDD#8, 0xC0#8] := by decide
theorem test_E7_frame : encodeFrame false [0xDB#8, 0xDC#8] = [0xDB#8, 0xDD#8, 0xDC#8, 0xC0#8] := by decide
theorem test_S6_empty_frame : (encodeFrame true [], encodeFrame false []) = ([0xC0#8, 0xC0#8], [0xC0#8]) := by decide

/-! ### Host operations: V-H vectors -/

theorem test_H2 : (after (react State.reset (.decNew (some 1006)))).map (fun t => t.dec? 0)
    = some (some ⟨.normal, [], some 1006⟩) := by decide
theorem test_H3 : (after (react State.reset (.encNew true))).map (fun t => (t.enc? 0, t.tx 0))
    = some (some ⟨true, .idle⟩, []) := by decide
theorem test_H4 : (after (react (oneDec .escaping [0x01#8, 0x02#8] (some 8)) (.decReset 0))).map (·.decs)
    = some [{ ctx := some ⟨.normal, [], some 8⟩, outs := [] }] := by decide
theorem test_H6 : onEnc false .inFrame [0x01#8] (.encReset 0) = some [(some ⟨false, .idle⟩, [0x01#8])] := by decide
theorem test_H7 : (after (react (oneDec .normal [0x01#8] none) (.drop (.dec 0)))).map (·.decs)
    = some [{ ctx := none, outs := [] }] := by decide
theorem test_dropped_is_refused : why (react { oneDec .normal [] none with decs := [{ ctx := none, outs := [] }] } (.byte 0 0x01#8))
    = some .noSuchContext := by decide

/-! ### Calls: 95_test_vectors.md section 3.3 -/

theorem test_D14a : decodeCall [0xC0#8, 0x01#8, 0xC0#8, 0x02#8, 0xC0#8] (freshDecoder none)
    = ⟨.frame [0x01#8], 3, freshDecoder none⟩ := by decide
theorem test_D16a : decodeCall [0xDB#8, 0x00#8, 0x01#8, 0xC0#8] (freshDecoder none)
    = ⟨.err .framingError, 2, ⟨.errorRecovery, [], none⟩⟩ := by decide
theorem test_D7 : (decodeAll [0x01#8, 0xDB#8, 0xC0#8, 0x02#8, 0xC0#8, 0x03#8, 0xC0#8] (freshDecoder none)).1
    = [.err .framingError, .frame [0x03#8]] := by decide
theorem test_D11 : (decodeAll [0x01#8, 0x02#8, 0xDB#8, 0xDC#8, 0xC0#8, 0x07#8, 0xC0#8] (freshDecoder (some 2))).1
    = [.err .oversizedPacket, .frame [0x07#8]] := by decide
/-- V-D6: the error is produced by the byte at index 2, the frame by the one at index 6. -/
theorem test_D6_tagged : taggedReports (decRun [0x01#8, 0xDB#8, 0x02#8, 0x03#8, 0xC0#8, 0x04#8, 0xC0#8] (freshDecoder none)).1
    = [(.err .framingError, 2), (.frame [0x04#8], 6)] := by decide
/-- The example of R86, as a call on the machine. -/
theorem test_R86_call : (callEncode 0 [0x01#8, 0xC0#8, 0xDB#8] (oneEnc true .idle)).map (·.1)
    = some (.emitted [0xC0#8, 0x01#8, 0xDB#8, 0xDC#8, 0xDB#8, 0xDD#8, 0xC0#8]) := by decide
/-- R86 asks for `Idle`, and R88 refuses START elsewhere. -/
theorem test_call_in_frame_has_no_value : callEncode 0 [0x01#8] (oneEnc true .inFrame) = none := by decide
/-- R64: Unescape undoes the second byte of what EncByte emits. -/
theorem test_unescape : (unescape 0xDC#8, unescape 0xDD#8, unescape 0xC0#8) = (some 0xC0#8, some 0xDB#8, none) := by decide

/-! ### Witnesses: a state and operands that meet the hypotheses of each statement -/

/-- A machine with a decoder, an encoder and an event pending. -/
def duplex : State :=
  { decs := [{ ctx := some ⟨.normal, [], none⟩, outs := [] }],
    encs := [{ ctx := some ⟨true, .idle⟩, tx := [], outs := [], draws := 0 }],
    input := [.byte 0 0x41#8], sinkFallible := false }

theorem witness_StepRunsTheNextEvent :
    duplex.input = .byte 0 0x41#8 :: [] ∧ decode (duplex.viewFor (.byte 0 0x41#8)) (.byte 0 0x41#8) = .decNLit 0 0x41#8 ∧
      (Instr.decNLit 0 0x41#8).wf = true ∧ duplex.dec? 0 = some ⟨.normal, [], none⟩ ∧ State.reset.input = [] := by decide

theorem witness_DecodeOfEncodeIsTheInstruction :
    (Instr.decEBad 0 0xC0#8).wf = true ∧ View.selects ⟨.escaping, true⟩ (.decEBad 0 0xC0#8) = true := by decide

theorem witness_EndDeliversTheFrame :
    (oneDec .normal [0x01#8] none).dec? 0 = some ⟨.normal, [0x01#8], none⟩ ∧ [0x01#8] ≠ ([] : List Byte) := by decide

theorem witness_EndWithEmptyBufferIsIgnored : (oneDec .normal [] none).dec? 0 = some ⟨.normal, [], none⟩ := by decide

theorem witness_EscBeginsAnEscape : (oneDec .normal [0x01#8] (some 1)).dec? 0 = some ⟨.normal, [0x01#8], some 1⟩ := by decide

theorem witness_LiteralIsAppendedOrOversized :
    (0xC1#8 : Byte) ≠ 0xC0#8 ∧ (0xC1#8 : Byte) ≠ 0xDB#8 ∧
      ((oneDec .normal [0x01#8] (some 2)).dec? 0 = some ⟨.normal, [0x01#8], some 2⟩ ∧ some 2 ≠ some [0x01#8].length) ∧
      ((oneDec .normal [0x01#8] (some 1)).dec? 0 = some ⟨.normal, [0x01#8], some 1⟩ ∧ some 1 = some [0x01#8].length) := by decide

theorem witness_EscEndAppendsEnd :
    ((oneDec .escaping [] (some 1)).dec? 0 = some ⟨.escaping, [], some 1⟩ ∧ some 1 ≠ some ([] : List Byte).length) ∧
      ((oneDec .escaping [] (some 0)).dec? 0 = some ⟨.escaping, [], some 0⟩ ∧ some 0 = some ([] : List Byte).length) := by decide

theorem witness_EscEscAppendsEsc :
    ((oneDec .escaping [] none).dec? 0 = some ⟨.escaping, [], none⟩ ∧ none ≠ some ([] : List Byte).length) ∧
      ((oneDec .escaping [0x02#8] (some 1)).dec? 0 = some ⟨.escaping, [0x02#8], some 1⟩ ∧ some 1 = some [0x02#8].length) := by decide

theorem witness_BadCodeRaisesFramingError :
    (oneDec .escaping [0x01#8] (some 1)).dec? 0 = some ⟨.escaping, [0x01#8], some 1⟩ ∧
      (0xDE#8 : Byte) ≠ 0xDC#8 ∧ (0xDE#8 : Byte) ≠ 0xDD#8 := by decide

theorem witness_EndLeavesRecovery : (oneDec .errorRecovery [0x01#8] none).dec? 0 = some ⟨.errorRecovery, [0x01#8], none⟩ := by decide

theorem witness_RecoverySkipsOtherBytes :
    (oneDec .errorRecovery [0x01#8] none).dec? 0 = some ⟨.errorRecovery, [0x01#8], none⟩ ∧ (0xBF#8 : Byte) ≠ 0xC0#8 := by decide

/-- For StartEmitsTheLead, DataEndIsEscaped, DataEscIsEscaped and FinishEmitsTheTrailingEnd: both phases, both flags. -/
theorem witness_encoder_rows :
    ((oneEnc true .idle).enc? 0 = some ⟨true, .idle⟩ ∧ (oneEnc true .idle).sinkFallible = false) ∧
      ((oneEnc false .inFrame).enc? 0 = some ⟨false, .inFrame⟩ ∧ (oneEnc false .inFrame).sinkFallible = false) := by decide

theorem witness_DataLiteralIsEmittedUnchanged :
    ((oneEnc true .idle).enc? 0 = some ⟨true, .idle⟩ ∧ (oneEnc true .idle).sinkFallible = false) ∧
      ((oneEnc false .inFrame).enc? 0 = some ⟨false, .inFrame⟩ ∧ (oneEnc false .inFrame).sinkFallible = false) ∧
      (0xDA#8 : Byte) ≠ 0xC0#8 ∧ (0xDA#8 : Byte) ≠ 0xDB#8 := by decide

theorem witness_EncoderEventsKeepTheirOrder :
    ((oneEnc true .idle).enc? 0 = some ⟨true, .idle⟩ ∧ (oneEnc true .idle).sinkFallible = false) ∧
      ((oneEnc true .inFrame).enc? 0 = some ⟨true, .inFrame⟩ ∧ (oneEnc true .inFrame).sinkFallible = false) := by decide

theorem witness_FallibleSinkWritesAPrefix :
    ((oneEnc true .idle [] true).enc? 0 = some ⟨true, .idle⟩ ∧ (oneEnc true .idle [] true).sinkFallible = true) ∧
      ((oneEnc true .inFrame [] true).enc? 0 = some ⟨true, .inFrame⟩ ∧ (oneEnc true .inFrame [] true).sinkFallible = true) ∧
      (0x00#8 : Byte) ≠ 0xC0#8 ∧ (0x00#8 : Byte) ≠ 0xDB#8 := by decide

theorem witness_DecResetKeepsTheBoundOnly :
    (oneDec .escaping [0x01#8] (some 8)).dec? 0 = some ⟨.escaping, [0x01#8], some 8⟩ := by decide

/-- For EncResetEmitsNothing and the second clause of DropEndsTheContext. -/
theorem witness_EncResetEmitsNothing :
    (oneEnc true .inFrame [0xC0#8]).encs[0]? = some { ctx := some ⟨true, .inFrame⟩, tx := [0xC0#8], outs := [], draws := 0 } := by decide

theorem witness_DropEndsTheContext :
    (oneDec .normal [0x01#8] none).dec? 0 = some ⟨.normal, [0x01#8], none⟩ ∧
      (Event.byte 0 0x01#8).target = some (.dec 0) ∧ (Event.finish 0).target = some (.enc 0) := by decide

/-- A literal that does not fit, for the first clause. -/
theorem witness_ErrorsAreReportedOnce : (decStep ⟨.normal, [0x01#8], some 1⟩ 0x02#8).2.isErr = true := by decide

theorem witness_AbsentContextIsRefused :
    ((Event.byte 1 0xC0#8).target = some (.dec 1) ∧ duplex.dec? 1 = none) ∧
      ((Event.finish 1).target = some (.enc 1) ∧ duplex.enc? 1 = none) := by decide

theorem witness_UnselectedRowIsRefused :
    (encode (.decREnd 0) = .byte 0 0xC0#8 ∧ duplex.dec? 0 = some ⟨.normal, [], none⟩ ∧
        ((Instr.decREnd 0).wf && (Decoder.view ⟨.normal, [], none⟩).selects (.decREnd 0)) = false) ∧
      (encode (.encDataLit 0 0xC0#8) = .data 0 0xC0#8 ∧ duplex.enc? 0 = some ⟨true, .idle⟩ ∧
        (Instr.encDataLit 0 0xC0#8).wf = false) := by decide

/-- For ByteStepIsDecStep, DecoderIsTotalAndNeverStuck and DecodeCallRunsTheLoop. -/
theorem witness_ByteStepIsDecStep : duplex.dec? 0 = some ⟨.normal, [], none⟩ := by decide

/-- Each conditional row of the table, at a bound just reached and just not. -/
theorem witness_DecStepIsTheStateTable :
    [0x01#8] ≠ ([] : List Byte) ∧ some 2 ≠ some [0x01#8].length ∧ some 1 = some [0x01#8].length ∧
      (0xDC#8 : Byte) ≠ 0xC0#8 ∧ (0xDC#8 : Byte) ≠ 0xDB#8 ∧ (0xDB#8 : Byte) ≠ 0xDC#8 ∧ (0xDB#8 : Byte) ≠ 0xDD#8 ∧
      (0xDB#8 : Byte) ≠ 0xC0#8 := by decide

/-- For StepKeepsTheInvariant, StepKeepsEscapesPaired, ConfigurationNeverChanges and StreamsAndRecordsOnlyGrow: both
invariants hold and the step completes. -/
theorem witness_StepKeepsTheInvariant :
    duplex.Inv ∧ duplex.StreamsPaired ∧ duplex.sinkFallible = false ∧
      after (step duplex) = some { duplex with
        decs := [{ ctx := some ⟨.normal, [0x41#8], none⟩, outs := [.noFrame] }], input := [] } := by decide

/-- The clauses of ConfigurationNeverChanges: decoder 0 and encoder 0 exist before and after that step. -/
theorem witness_ConfigurationNeverChanges :
    duplex.dec? 0 = some ⟨.normal, [], none⟩ ∧ duplex.enc? 0 = some ⟨true, .idle⟩ ∧
      (after (step duplex)).map (fun t => (t.dec? 0, t.enc? 0)) = some (some ⟨.normal, [0x41#8], none⟩, some ⟨true, .idle⟩) := by decide

/-- A machine with a dropped decoder, a dropped encoder and a construction pending. -/
def dropped : State :=
  { decs := [{ ctx := none, outs := [] }], encs := [{ ctx := none, tx := [0xC0#8], outs := [], draws := 0 }],
    input := [.decNew none], sinkFallible := false }

theorem witness_DroppedContextStaysDropped :
    (after (step dropped)).isSome = true ∧ dropped.decs[0]? = some { ctx := none, outs := [] } ∧
      dropped.encs[0]? = some { ctx := none, tx := [0xC0#8], outs := [], draws := 0 } := by decide

theorem witness_EventChangesItsContextOnly :
    ((after (react duplex (.byte 0 0xC0#8))).isSome = true ∧ (Event.byte 0 0xC0#8).target = some (.dec 0)) ∧
      ((after (react duplex (.start 0))).isSome = true ∧ (Event.start 0).target = some (.enc 0)) ∧
      ((after (react duplex (.encNew true))).isSome = true ∧ (Event.encNew true).target = none) := by decide

theorem witness_EventsOfDifferentContextsCommute :
    (Event.byte 0 0xDB#8).target = some (.dec 0) ∧ (Event.start 0).target = some (.enc 0) ∧ Ctx.dec 0 ≠ Ctx.enc 0 ∧
      ((after (react duplex (.byte 0 0xDB#8))).bind (fun t => after (react t (.start 0)))).isSome = true := by decide

theorem witness_OversizedPacketCause :
    (Decoder.cap ⟨.normal, [], none⟩ = none) ∧
      Decoder.cap ⟨.normal, [0x01#8], some 2⟩ = some ((Decoder.buf ⟨.normal, [0x01#8], some 2⟩).length + 1) := by decide

theorem witness_RecoveryEntryAndReturn :
    (decStep ⟨.escaping, [0x01#8], none⟩ 0x00#8).2 = .err .framingError ∧
      (decStep ⟨.normal, [0x01#8], some 1⟩ 0x00#8).2 = .err .oversizedPacket ∧
      Decoder.state ⟨.errorRecovery, [0x01#8], none⟩ = .errorRecovery := by decide

theorem witness_WireBytesAreStuffed :
    [0xDB#8, 0xDC#8] = ((encodeFrame true [0xC0#8]).drop (if true then 1 else 0)).dropLast := by decide

/-- For EncodeCallAppendsTheWireFrame and EncodingInTurnConcatenates. -/
theorem witness_EncodeCallAppendsTheWireFrame : duplex.enc? 0 = some ⟨true, .idle⟩ ∧ duplex.sinkFallible = false := by decide

/-- Both clauses of DecodeCallReportsAtMostOnce. -/
theorem witness_DecodeCallReportsAtMostOnce :
    (decodeCall [0xC0#8] (freshDecoder none)).outcome = .noFrame ∧
      (decodeCall [0xDB#8, 0x00#8, 0xC0#8] (freshDecoder none)).outcome ≠ .noFrame := by decide

theorem witness_PendingBytesAreConsumedInOrder :
    duplex.dec? 0 = some ⟨.normal, [], none⟩ ∧ duplex.input = byteEvents 0 [0x41#8] ++ [] := by decide

/-- A bound that a frame just fits. -/
theorem fits_one_of_one : FitsBound (some 1) 1 := fun _ h => by cases h; exact Nat.le_refl 1

theorem witness_RoundTripOfAFrame :
    (freshDecoder (some 1)).state = .normal ∧ (freshDecoder (some 1)).buf = [] ∧
      FitsBound (freshDecoder (some 1)).cap [0xC0#8].length :=
  ⟨rfl, rfl, fits_one_of_one⟩

theorem witness_ResynchronisesAtTheNextEnd :
    Decoder.state ⟨.errorRecovery, [0x01#8], none⟩ = .errorRecovery ∧ 0xC0#8 ∉ [0xDB#8, 0xDC#8] := by decide

/-- An escaped byte at a bound of 0, and a literal at a bound of 1. -/
theorem witness_OversizedFrameIsDroppedWhole :
    ((freshDecoder (some 1)).state = .normal ∧ (freshDecoder (some 1)).buf = [] ∧ (freshDecoder (some 1)).cap = some 1 ∧
      [0xC0#8, 0x41#8][1]? = some 0x41#8) ∧
    (freshDecoder (some 0)).state = .normal ∧ (freshDecoder (some 0)).buf = [] ∧ (freshDecoder (some 0)).cap = some 0 ∧
      [0xC0#8][0]? = some 0xC0#8 := by decide

theorem witness_DeliveredFramesFitTheBound :
    (Decoder.bounded ⟨.normal, [0x01#8], some 1⟩ = true ∧
        (decStep ⟨.normal, [0x01#8], some 1⟩ 0xC0#8).2 = .frame [0x01#8]) ∧
      ((freshDecoder (some 0)).bounded = true ∧ (freshDecoder (some 0)).cap = some 0) := by decide

theorem witness_DecoderIsTotalAndNeverStuck :
    duplex.dec? 0 = some ⟨.normal, [], none⟩ ∧ Decoder.state ⟨.errorRecovery, [], none⟩ = .errorRecovery ∧
      Decoder.state ⟨.escaping, [], none⟩ = .escaping := by decide

/-- All clauses of StreamOfFramesIsDelivered: frames of one byte and of none, a bound of 1; for the joined frame a bound of 2
would be needed, so it is empty here. -/
theorem witness_StreamOfFramesIsDelivered :
    (∀ x ∈ [(true, [0xC0#8]), (false, [])], FitsBound (some 1) x.2.length) ∧ [0x55#8] ≠ ([] : List Byte) ∧
      FitsBound (some 1) [0xDB#8].length ∧ FitsBound (some 1) ([0x55#8] ++ []).length := by
  refine ⟨fun x hx => ?_, by decide, fits_one_of_one, fits_one_of_one⟩
  rcases List.mem_cons.1 hx with rfl | hx
  · exact fits_one_of_one
  · rcases List.mem_cons.1 hx with rfl | hx
    · exact fun _ _ => Nat.zero_le _
    · cases hx

theorem witness_LoopbackDeliversTheFrame :
    [0xC0#8] ≠ ([] : List Byte) ∧ FitsBound none [0xC0#8].length ∧ duplex.enc? 0 = some ⟨true, .idle⟩ ∧
      duplex.sinkFallible = false ∧ duplex.dec? 0 = some ⟨.normal, [], none⟩ :=
  ⟨by decide, fun _ h => (by cases h), by decide, rfl, by decide⟩

end Sys2Proof.Tests
end

/-! ### What no step changes: the bounds, the flags and the sink's parameter -/

namespace Sys2Proof.Machine

/-- Between `s` and `t` no context that exists in both has changed its configuration, nor has the sink (R9, R10, R12). -/
structure KeepsConfig (s t : State) : Prop where
  sink : t.sinkFallible = s.sinkFallible
  cap : ∀ h d d', s.dec? h = some d → t.dec? h = some d' → d'.cap = d.cap
  lead : ∀ h e e', s.enc? h = some e → t.enc? h = some e' → e'.lead = e.lead

/-- No transition of a decoder changes its bound (R23). -/
theorem DecTransition.cap_eq {d : Decoder} {r : Decoder × DecOutcome} (hr : DecTransition d r) : r.1.cap = d.cap := by
  cases hr with
  | delivered _ _ => exact deliver_cap d
  | unchanged _ => rfl
  | escaped _ => rfl
  | appended v _ => exact tryAppend_cap d v
  | violated _ => exact raiseError_cap d _
  | recovered _ => exact recover_cap d

/-- Whatever the sink does, an encoder keeps its flag (R24). -/
theorem emit_lead {p : EncPort} {fallible : Bool} {h : Handle} {e e' : Encoder} {bytes : List Byte} {ph : Phase}
    (hc : (p.emit fallible h e bytes ph).ctx = some e') : e'.lead = e.lead := by
  obtain ⟨_, _, ph', _, _, hctx, _, _⟩ := emit_cases p fallible h e bytes ph
  obtain rfl := Option.some.inj (hctx.symm.trans hc)
  rfl

/-- An update of decoder `h` that leaves its port no context with another bound keeps every configuration. -/
theorem keepsConfig_updDec {s : State} {h : Handle} {d : Decoder} {f : DecPort → DecPort} (hd : s.dec? h = some d)
    (hf : ∀ p d', (f p).ctx = some d' → d'.cap = d.cap) : KeepsConfig s (s.updDec h f) where
  sink := rfl
  lead _ _ _ he he' := by rw [Option.some.inj (he.symm.trans he')]
  cap k c c' hc hc' := by
    by_cases hk : k = h
    · subst hk
      obtain rfl := Option.some.inj (hd.symm.trans hc)
      obtain ⟨p, hp, -⟩ := dec?_eq_some.1 hd
      obtain ⟨q, hq, hqc⟩ := dec?_eq_some.1 hc'
      obtain rfl := Option.some.inj ((updDec_port_self hp f).symm.trans hq)
      exact hf p c' hqc
    · rw [dec?_updDec_other s h hk] at hc'
      rw [Option.some.inj (hc.symm.trans hc')]

/-- An update of encoder `h` that leaves its port no context with another flag keeps every configuration. -/
theorem keepsConfig_updEnc {s : State} {h : Handle} {e : Encoder} {f : EncPort → EncPort} (he : s.enc? h = some e)
    (hf : ∀ p e', (f p).ctx = some e' → e'.lead = e.lead) : KeepsConfig s (s.updEnc h f) where
  sink := rfl
  cap _ _ _ hd hd' := by rw [Option.some.inj (hd.symm.trans hd')]
  lead k c c' hc hc' := by
    by_cases hk : k = h
    · subst hk
      obtain rfl := Option.some.inj (he.symm.trans hc)
      obtain ⟨p, hp, -⟩ := enc?_eq_some.1 he
      obtain ⟨q, hq, hqc⟩ := enc?_eq_some.1 hc'
      obtain rfl := Option.some.inj ((updEnc_port_self hp f).symm.trans hq)
      exact hf p c' hqc
    · rw [enc?_updEnc_other s h hk] at hc'
      rw [Option.some.inj (hc.symm.trans hc')]

/-- A decoder that exists keeps its handle when ports are added behind it (R130). -/
theorem dec?_append {s : State} {h : Handle} {d : Decoder} (hd : s.dec? h = some d) (ps : List DecPort) :
    State.dec? { s with decs := s.decs ++ ps } h = some d := by
  obtain ⟨p, hp, hc⟩ := dec?_eq_some.1 hd
  exact dec?_eq_some.2 ⟨p, (List.getElem?_append_left (List.getElem?_eq_some_iff.1 hp).1).trans hp, hc⟩

/-- An encoder that exists keeps its handle when ports are added behind it (R131). -/
theorem enc?_append {s : State} {h : Handle} {e : Encoder} (he : s.enc? h = some e) (ps : List EncPort) :
    State.enc? { s with encs := s.encs ++ ps } h = some e := by
  obtain ⟨p, hp, hc⟩ := enc?_eq_some.1 he
  exact enc?_eq_some.2 ⟨p, (List.getElem?_append_left (List.getElem?_eq_some_iff.1 hp).1).trans hp, hc⟩

/-- The construction of decoders keeps every configuration. -/
theorem keepsConfig_decNew (s : State) (ps : List DecPort) : KeepsConfig s { s with decs := s.decs ++ ps } where
  sink := rfl
  cap _ _ _ hd hd' := by rw [Option.some.inj ((dec?_append hd ps).symm.trans hd')]
  lead _ _ _ he he' := by rw [Option.some.inj (he.symm.trans he')]

/-- The construction of encoders keeps every configuration. -/
theorem keepsConfig_encNew (s : State) (ps : List EncPort) : KeepsConfig s { s with encs := s.encs ++ ps } where
  sink := rfl
  cap _ _ _ hd hd' := by rw [Option.some.inj (hd.symm.trans hd')]
  lead _ _ _ he he' := by rw [Option.some.inj ((enc?_append he ps).symm.trans he')]

/-- Whatever an instruction does, it keeps every configuration. -/
theorem ExecEffect.keepsConfig {s t : State} (hx : ExecEffect s t) : KeepsConfig s t := by
  cases hx with
  | decoder h d r hd hr => exact keepsConfig_updDec hd fun _ _ hc => Option.some.inj hc ▸ hr.cap_eq
  | encoder h e bytes ph he _ => exact keepsConfig_updEnc he fun _ _ hc => emit_lead hc
  | decNew cap => exact keepsConfig_decNew s _
  | encNew lead => exact keepsConfig_encNew s _
  | decReset h d hd => exact keepsConfig_updDec hd fun _ _ hc => Option.some.inj hc ▸ freshDecoder_cap d.cap
  | encReset h e he => exact keepsConfig_updEnc he fun _ _ hc => Option.some.inj hc ▸ freshEncoder_lead e.lead
  | decDrop h d hd => exact keepsConfig_updDec hd fun _ _ hc => nomatch hc
  | encDrop h e he => exact keepsConfig_updEnc he fun _ _ hc => nomatch hc

/-- Where nothing happens every configuration is kept. -/
theorem KeepsConfig.refl (s : State) : KeepsConfig s s where
  sink := rfl
  cap _ _ _ hd hd' := by rw [Option.some.inj (hd.symm.trans hd')]
  lead _ _ _ he he' := by rw [Option.some.inj (he.symm.trans he')]

/-- A step keeps every configuration: an idle one changes nothing, and the pending events are no part of a context. -/
theorem step_keepsConfig {s t : State} (hx : step s = .next t) : KeepsConfig s t := by
  obtain ⟨-, rfl⟩ | ⟨_, _, -, hx⟩ := step_effect hx
  · exact KeepsConfig.refl t
  · obtain ⟨hsink, hcap, hlead⟩ := hx.keepsConfig
    exact ⟨hsink, hcap, hlead⟩

/-- Settles O34: every effect that `exec` can have keeps the bounds, the flags and the sink's parameter. -/
theorem configurationNeverChanges : Obligations.ConfigurationNeverChanges := by
  intro s t hx
  obtain ⟨hsink, hcap, hlead⟩ := step_keepsConfig hx
  exact ⟨hsink, hcap, hlead⟩

/-- Settles O1, from the equations of a step with and without a pending event. -/
theorem stepRunsTheNextEvent : Obligations.StepRunsTheNextEvent := by
  refine ⟨?_, ?_, ?_⟩
  · rintro s e rest i hin rfl -
    exact step_event hin
  · intro s h b d hd
    exact viewFor_byte hd b
  · intro s hin
    exact step_idle hin

end Sys2Proof.Machine

/-! ### The invariant of the machine: every effect of an instruction keeps every port well -/

namespace Sys2Proof.Machine

/-- The capacity invariant, as the rules say it (R29). -/
theorem bounded_iff (d : Decoder) : d.bounded = true ↔ FitsBound d.cap d.buf.length := by
  unfold Decoder.bounded FitsBound
  cases d.cap <;> simp

/-- What is asked of a delivered frame, as the rules say it (R115, R120). -/
theorem okFor_frame_iff (cap : Option Nat) (f : List Byte) :
    DecOutcome.okFor cap (.frame f) = true ↔ f ≠ [] ∧ FitsBound cap f.length := by
  unfold DecOutcome.okFor FitsBound
  cases cap <;> simp

/-- An outcome that respects a bound is one that a decoder without a bound may have had. -/
theorem okFor_none {cap : Option Nat} {o : DecOutcome} (ho : o.okFor cap = true) : o.okFor none = true := by
  cases o with
  | frame f => exact (okFor_frame_iff none f).2 ⟨((okFor_frame_iff cap f).1 ho).1, nofun⟩
  | noFrame => rfl
  | err _ => rfl

/-- An append delivers nothing. -/
theorem tryAppend_okFor (d : Decoder) (v : Byte) (cap : Option Nat) : (tryAppend d v).2.okFor cap = true := by
  unfold tryAppend
  split <;> rfl

/-- A fresh decoder respects any bound. -/
@[simp] theorem freshDecoder_bounded (cap : Option Nat) : (freshDecoder cap).bounded = true :=
  (bounded_iff _).2 fun c _ => Nat.zero_le c

/-- A transition from a buffer within its bound leaves one, and what it delivers is neither empty nor too long: a frame
is the buffer itself, and only the row that asks for a buffer that is not empty delivers one. -/
theorem DecTransition.keepsBound {d : Decoder} {r : Decoder × DecOutcome} (hr : DecTransition d r)
    (hd : d.bounded = true) : r.1.bounded = true ∧ r.2.okFor d.cap = true := by
  cases hr with
  | delivered _ hb =>
    exact ⟨freshDecoder_bounded d.cap, (okFor_frame_iff d.cap d.buf).2 ⟨hb, (bounded_iff d).1 hd⟩⟩
  | unchanged _ => exact ⟨hd, rfl⟩
  | escaped _ => exact ⟨hd, rfl⟩
  | appended v _ => exact ⟨tryAppend_bounded hd v, tryAppend_okFor d v d.cap⟩
  | violated _ => exact ⟨hd, rfl⟩
  | recovered _ => exact ⟨freshDecoder_bounded d.cap, rfl⟩

/-! ### Ports -/

/-- The invariant of a port whose decoder exists. -/
theorem DecPort.ok_iff_of_ctx {p : DecPort} {d : Decoder} (hp : p.ctx = some d) :
    p.ok = true ↔ d.bounded = true ∧ p.outs.all (DecOutcome.okFor d.cap) = true := by
  simp [DecPort.ok, hp]

/-- A transition of a port's decoder keeps the port's invariant. -/
theorem DecPort.ok_stepped {p : DecPort} {d : Decoder} {r : Decoder × DecOutcome} (hp : p.ctx = some d)
    (hok : p.ok = true) (hr : DecTransition d r) :
    DecPort.ok { ctx := some r.1, outs := p.outs ++ [r.2] } = true := by
  obtain ⟨hd, houts⟩ := (DecPort.ok_iff_of_ctx hp).1 hok
  obtain ⟨hb, ho⟩ := hr.keepsBound hd
  refine (DecPort.ok_iff_of_ctx rfl).2 ⟨hb, ?_⟩
  simp [hr.cap_eq, houts, ho]

/-- The reset of a port's decoder keeps the port's invariant: the bound stays, and the buffer is emptied (R132). -/
theorem DecPort.ok_reset {p : DecPort} {d : Decoder} (hp : p.ctx = some d) (hok : p.ok = true) :
    DecPort.ok { p with ctx := some (freshDecoder d.cap) } = true :=
  (DecPort.ok_iff_of_ctx rfl).2 ⟨freshDecoder_bounded d.cap, ((DecPort.ok_iff_of_ctx hp).1 hok).2⟩

/-- A port whose decoder is dropped keeps what is asked of its past frames without the bound (R134). -/
theorem DecPort.ok_dropped {p : DecPort} {d : Decoder} (hp : p.ctx = some d) (hok : p.ok = true) :
    DecPort.ok { p with ctx := none } = true := by
  have houts := List.all_eq_true.1 ((DecPort.ok_iff_of_ctx hp).1 hok).2
  exact List.all_eq_true.2 fun o ho => okFor_none (houts o ho)

/-- Whatever the sink does, the output stream stays the sum of what the steps wrote (R51 b). -/
theorem EncPort.ok_emit {p : EncPort} (hok : p.ok = true) (fallible : Bool) (h : Handle) (e : Encoder)
    (bytes : List Byte) (ph : Phase) : (p.emit fallible h e bytes ph).ok = true := by
  obtain ⟨w, o, _, _, hw, _, htx, houts⟩ := emit_cases p fallible h e bytes ph
  have hp : p.tx = p.outs.flatMap EncOutcome.written := by simpa [EncPort.ok] using hok
  simp [EncPort.ok, htx, houts, hp, hw]

/-! ### The machine -/

/-- The invariant of the machine is that of each of its ports. -/
theorem State.inv_iff (s : State) : s.Inv ↔ s.decs.all DecPort.ok = true ∧ s.encs.all EncPort.ok = true :=
  Bool.and_eq_true_iff

/-- An update of decoder `h` keeps the invariant when it keeps that of the port where the decoder stands. -/
theorem State.Inv.updDec {s : State} {h : Handle} {d : Decoder} {f : DecPort → DecPort} (hs : s.Inv)
    (hd : s.dec? h = some d) (hf : ∀ p, p.ctx = some d → p.ok = true → (f p).ok = true) : (s.updDec h f).Inv := by
  obtain ⟨hdecs, hencs⟩ := s.inv_iff.1 hs
  obtain ⟨p, hp, hpd⟩ := dec?_eq_some.1 hd
  have hok : p.ok = true := List.all_eq_true.1 hdecs p (List.mem_of_getElem? hp)
  refine (State.inv_iff _).2 ⟨all_modify hdecs fun q hq => ?_, hencs⟩
  obtain rfl := Option.some.inj (hp.symm.trans hq)
  exact hf p hpd hok

/-- An update of encoder `h` keeps the invariant when it keeps that of a port. -/
theorem State.Inv.updEnc {s : State} {f : EncPort → EncPort} (hs : s.Inv) (h : Handle)
    (hf : ∀ p, p.ok = true → (f p).ok = true) : (s.updEnc h f).Inv := by
  obtain ⟨hdecs, hencs⟩ := s.inv_iff.1 hs
  exact (State.inv_iff _).2
    ⟨hdecs, all_modify hencs fun p hp => hf p (List.all_eq_true.1 hencs p (List.mem_of_getElem? hp))⟩

/-- Whatever an instruction does, it keeps the invariant. -/
theorem ExecEffect.keepsInv {s t : State} (hx : ExecEffect s t) (hs : s.Inv) : t.Inv := by
  cases hx with
  | decoder h d r hd hr => exact hs.updDec hd fun _ hp hok => DecPort.ok_stepped hp hok hr
  | encoder h e bytes ph _ _ => exact hs.updEnc h fun _ hok => EncPort.ok_emit hok _ h e bytes ph
  | decNew cap =>
    obtain ⟨hdecs, hencs⟩ := s.inv_iff.1 hs
    exact (State.inv_iff _).2 ⟨by simp [hdecs, DecPort.ok], hencs⟩
  | encNew lead =>
    obtain ⟨hdecs, hencs⟩ := s.inv_iff.1 hs
    exact (State.inv_iff _).2 ⟨hdecs, by simp [hencs, EncPort.ok]⟩
  | decReset h d hd => exact hs.updDec hd fun _ hp hok => DecPort.ok_reset hp hok
  | encReset h e _ => exact hs.updEnc h fun _ hok => hok
  | decDrop h d hd => exact hs.updDec hd fun _ hp hok => DecPort.ok_dropped hp hok
  | encDrop h e _ => exact hs.updEnc h fun _ hok => hok

/-- Settles O31: an idle step changes nothing, and every effect that `exec` can have keeps the invariant of every port;
the pending events are no part of it. -/
theorem stepKeepsTheInvariant : Obligations.StepKeepsTheInvariant := by
  intro s t hs hx
  obtain ⟨-, rfl⟩ | ⟨_, _, -, hx⟩ := step_effect hx
  · exact hs
  · exact hx.keepsInv hs

/-! ### The garbage of `ErrorRecovery` -/

/-- Settles O43, by induction on the bytes: END discards the garbage, after which the two runs are one (R108), and any
other byte is skipped in both (R109). -/
theorem garbageIsNeverSeen : Obligations.GarbageIsNeverSeen := by
  intro bytes g g' cap
  induction bytes with
  | nil => rfl
  | cons b bs ih =>
    by_cases hb : b = Token.END
    · subst hb
      simp only [decRun_cons, decStep_recovery_END]
    · simp only [decRun_cons, decStep_recovery_skip _ _ hb, ih]

end Sys2Proof.Machine

/-! ### Escapes on the output streams: whole steps are emitted, and whole steps are paired -/

namespace Sys2Proof.Machine

/-- Streams in which every ESC has its code stay so when one is written behind the other (R89 c). -/
theorem escPaired_append {xs ys : List Byte} (hx : escPaired xs = true) (hy : escPaired ys = true) :
    escPaired (xs ++ ys) = true := by
  induction xs using escPaired.induct with
  | case1 => exact hy
  | case2 b =>
    have hb : b ≠ Token.ESC := by simpa [escPaired] using hx
    cases ys with
    | nil => exact hx
    | cons y ys => simpa [escPaired, hb] using hy
  | case3 c rest ih =>
    obtain ⟨hc, hrest⟩ : (c = Token.ESC_END ∨ c = Token.ESC_ESC) ∧ escPaired rest = true := by
      simpa [escPaired] using hx
    simpa [escPaired] using ⟨hc, ih hrest⟩
  | case4 b c rest hb ih =>
    have hrest : escPaired (c :: rest) = true := by simpa [escPaired, hb] using hx
    simpa [escPaired, hb] using ih hrest

/-- The wire bytes of a payload byte hold an ESC only with its code (R85). -/
theorem encByte_paired (b : Byte) : escPaired (encByte b) = true := by
  by_cases h₁ : b = Token.END
  · subst h₁
    rfl
  · by_cases h₂ : b = Token.ESC
    · subst h₂
      rfl
    · simp [encByte_other h₁ h₂, escPaired, h₂]

/-- What a row of the encoder asks to emit holds an ESC only with its code. -/
theorem Emission.paired {e : Encoder} {bytes : List Byte} {ph : Phase} (hb : Emission e bytes ph) :
    escPaired bytes = true := by
  cases hb with
  | start _ => cases e.lead <;> rfl
  | payload b _ => exact encByte_paired b
  | finish _ => rfl

/-- An update of one encoder keeps the streams paired when it keeps the stream of a port so. -/
theorem State.StreamsPaired.updEnc {s : State} {f : EncPort → EncPort} (hs : s.StreamsPaired) (h : Handle)
    (hf : ∀ p, escPaired p.tx = true → escPaired (f p).tx = true) : (s.updEnc h f).StreamsPaired :=
  all_modify hs fun p hp => hf p (List.all_eq_true.1 hs p (List.mem_of_getElem? hp))

/-- On the core's sink, whatever an instruction does, it keeps the streams paired: an emission is written whole, and a
reset or a drop writes nothing. -/
theorem ExecEffect.keepsPaired {s t : State} (hx : ExecEffect s t) (hsink : s.sinkFallible = false)
    (hs : s.StreamsPaired) : t.StreamsPaired := by
  cases hx with
  | encoder h e bytes ph _ hb =>
    rw [hsink]
    exact hs.updEnc h fun _ hp => escPaired_append hp hb.paired
  | encNew lead => simpa [State.StreamsPaired, escPaired] using hs
  | encReset h e _ => exact hs.updEnc h fun _ hp => hp
  | encDrop h e _ => exact hs.updEnc h fun _ hp => hp
  | decoder _ _ _ _ _ | decNew _ | decReset _ _ _ | decDrop _ _ _ => exact hs

/-- Settles O33: an idle step changes nothing, and every effect that `exec` can have keeps the streams paired; the pending
events are no part of them. -/
theorem stepKeepsEscapesPaired : Obligations.StepKeepsEscapesPaired := by
  intro s t hsink hs hx
  obtain ⟨-, rfl⟩ | ⟨_, _, -, hx⟩ := step_effect hx
  · exact hs
  · exact hx.keepsPaired hsink hs

/-! ### What the host has been given only grows -/

/-- What the port at index `h` has given the host: one field `g` of it, and nothing where there is no such port. -/
def handedOver {α β : Type} (g : α → List β) (ports : List α) (h : Handle) : List β := ((ports[h]?).map g).getD []

theorem tx_eq_handedOver (s : State) (h : Handle) : s.tx h = handedOver EncPort.tx s.encs h := rfl
theorem encOuts_eq_handedOver (s : State) (h : Handle) : s.encOuts h = handedOver EncPort.outs s.encs h := rfl
theorem decOuts_eq_handedOver (s : State) (h : Handle) : s.decOuts h = handedOver DecPort.outs s.decs h := rfl

/-- Where one port is changed to one that has given more, no port has given less. -/
theorem handedOver_prefix_modify {α β : Type} {g : α → List β} {f : α → α} (hf : ∀ p, g p <+: g (f p))
    (ports : List α) (h k : Handle) : handedOver g ports k <+: handedOver g (ports.modify h f) k := by
  simp only [handedOver, List.getElem?_modify]
  cases ports[k]? with
  | none => exact List.prefix_refl _
  | some p =>
    by_cases hk : h = k
    · simpa [hk] using hf p
    · simp [hk]

/-- Where ports are added behind the others, no port has given less. -/
theorem handedOver_prefix_append {α β : Type} (g : α → List β) (ports new : List α) (k : Handle) :
    handedOver g ports k <+: handedOver g (ports ++ new) k := by
  cases hp : ports[k]? with
  | none => simp [handedOver, hp]
  | some p =>
    have hk : k < ports.length := (List.getElem?_eq_some_iff.1 hp).1
    simp [handedOver, List.getElem?_append_left hk]

/-- From `s` to `t` every output stream and every record of outcomes is the same or longer (R46, R32). -/
structure Grows (s t : State) : Prop where
  tx : ∀ h, s.tx h <+: t.tx h
  decOuts : ∀ h, s.decOuts h <+: t.decOuts h
  encOuts : ∀ h, s.encOuts h <+: t.encOuts h

/-- Ports of decoders that have given no less, the encoders' ports being the same. -/
theorem Grows.of_decs {s t : State} (hencs : t.encs = s.encs)
    (hdecs : ∀ k, handedOver DecPort.outs s.decs k <+: handedOver DecPort.outs t.decs k) : Grows s t where
  tx k := by rw [tx_eq_handedOver, tx_eq_handedOver, hencs]
  decOuts := hdecs
  encOuts k := by rw [encOuts_eq_handedOver, encOuts_eq_handedOver, hencs]

/-- Ports of encoders that have given no less, the decoders' ports being the same. -/
theorem Grows.of_encs {s t : State} (hdecs : t.decs = s.decs)
    (htx : ∀ k, handedOver EncPort.tx s.encs k <+: handedOver EncPort.tx t.encs k)
    (houts : ∀ k, handedOver EncPort.outs s.encs k <+: handedOver EncPort.outs t.encs k) : Grows s t where
  tx := htx
  decOuts k := by rw [decOuts_eq_handedOver, decOuts_eq_handedOver, hdecs]
  encOuts := houts

theorem grows_updDec {f : DecPort → DecPort} {s : State} {h : Handle} (hf : ∀ p, p.outs <+: (f p).outs) :
    Grows s (s.updDec h f) :=
  Grows.of_decs rfl (handedOver_prefix_modify hf s.decs h)

theorem grows_updEnc {f : EncPort → EncPort} {s : State} {h : Handle}
    (hf : ∀ p, p.tx <+: (f p).tx ∧ p.outs <+: (f p).outs) : Grows s (s.updEnc h f) :=
  Grows.of_encs rfl (handedOver_prefix_modify (fun p => (hf p).1) s.encs h)
    (handedOver_prefix_modify (fun p => (hf p).2) s.encs h)

/-- Whatever the sink does, an encoder step writes behind what stands on the stream and in the record. -/
theorem emit_grows (p : EncPort) (fallible : Bool) (h : Handle) (e : Encoder) (bytes : List Byte) (ph : Phase) :
    p.tx <+: (p.emit fallible h e bytes ph).tx ∧ p.outs <+: (p.emit fallible h e bytes ph).outs := by
  obtain ⟨w, o, _, _, _, _, htx, houts⟩ := emit_cases p fallible h e bytes ph
  exact ⟨⟨w, htx.symm⟩, ⟨[o], houts.symm⟩⟩

/-- Whatever an instruction does, streams and records only grow. -/
theorem ExecEffect.grows {s t : State} (hx : ExecEffect s t) : Grows s t := by
  cases hx with
  | decoder _ _ _ _ _ => exact grows_updDec (fun _ => List.prefix_append _ _)
  | encoder h e bytes ph _ _ => exact grows_updEnc (fun p => emit_grows p _ h e bytes ph)
  | decNew cap => exact Grows.of_decs rfl (handedOver_prefix_append _ s.decs _)
  | encNew lead => exact Grows.of_encs rfl (handedOver_prefix_append _ s.encs _) (handedOver_prefix_append _ s.encs _)
  | decReset _ _ _ | decDrop _ _ _ => exact grows_updDec (fun _ => List.prefix_refl _)
  | encReset _ _ _ | encDrop _ _ _ => exact grows_updEnc (fun _ => ⟨List.prefix_refl _, List.prefix_refl _⟩)

/-- A step only adds to streams and records: an idle one adds nothing, and the pending events are no part of them. -/
theorem step_grows {s t : State} (hx : step s = .next t) : Grows s t := by
  obtain ⟨-, rfl⟩ | ⟨_, _, -, hx⟩ := step_effect hx
  · exact ⟨fun _ => List.prefix_refl _, fun _ => List.prefix_refl _, fun _ => List.prefix_refl _⟩
  · obtain ⟨htx, hdec, henc⟩ := hx.grows
    exact ⟨htx, hdec, henc⟩

/-- Settles O35: every effect that `exec` can have leaves a port's stream and record as they are or writes behind them. -/
theorem streamsAndRecordsOnlyGrow : Obligations.StreamsAndRecordsOnlyGrow := by
  intro s t hx h
  obtain ⟨htx, hdec, henc⟩ := step_grows hx
  exact ⟨htx h, hdec h, henc h⟩

/-! ### Bytes pending for one decoder -/

/-- The row that a decoder reads a byte as does what `DecStep` says (R100 against R101 to R109). -/
theorem exec_decodeByte {s : State} {h : Handle} {d : Decoder} (hd : s.dec? h = some d) (b : Byte) :
    exec (decodeByte d.view h b) s = .next (s.decStepped h (decStep d b)) := by
  obtain ⟨st, buf, cap⟩ := d
  cases st with
  | normal =>
    by_cases hE : b = Token.END
    · subst hE
      cases buf <;> exact decRow_next hd rfl rfl
    · by_cases hS : b = Token.ESC
      · subst hS
        exact decRow_next hd rfl rfl
      · rw [decStep_normal_literal _ _ hE hS]
        refine (congrArg (exec · s) (decodeByte_literal hE hS _ h)).trans ?_
        exact decRow_next hd (by simp [Instr.wf, hE, hS]) rfl
  | escaping =>
    by_cases hE : b = Token.ESC_END
    · subst hE
      exact decRow_next hd rfl rfl
    · by_cases hS : b = Token.ESC_ESC
      · subst hS
        exact decRow_next hd rfl rfl
      · rw [decStep_escaping_bad _ _ hE hS]
        refine (congrArg (exec · s) (decodeByte_bad hE hS _ h)).trans ?_
        exact decRow_next hd (by simp [Instr.wf, hE, hS]) rfl
  | errorRecovery =>
    by_cases hE : b = Token.END
    · subst hE
      exact decRow_next hd rfl rfl
    · rw [decStep_recovery_skip _ _ hE]
      refine (congrArg (exec · s) (decodeByte_skip hE _ h)).trans ?_
      exact decRow_next hd (by simp [Instr.wf, hE]) rfl

/-- A step with a byte pending for a decoder that exists. -/
theorem step_byte {s : State} {h : Handle} {b : Byte} {rest : List Event} {d : Decoder}
    (hin : s.input = .byte h b :: rest) (hd : s.dec? h = some d) :
    step s = .next (State.decStepped { s with input := rest } h (decStep d b)) := by
  rw [step_event hin, viewFor_byte hd]
  exact exec_decodeByte (s := { s with input := rest }) hd b

/-- A run whose first step completes goes on from where that leads. -/
theorem steps_succ {s t : State} (hx : step s = .next t) (k : Nat) : steps (k + 1) s = steps k t := by
  simp [steps, hx]

theorem OnlyDec.refl (h : Handle) (s : State) : OnlyDec h s s := ⟨rfl, rfl, rfl, rfl, fun _ _ => rfl⟩

theorem OnlyDec.trans {h : Handle} {s t u : State} (h₁ : OnlyDec h s t) (h₂ : OnlyDec h t u) : OnlyDec h s u where
  encs := h₂.encs.trans h₁.encs
  input := h₂.input.trans h₁.input
  sink := h₂.sink.trans h₁.sink
  count := h₂.count.trans h₁.count
  others k hk := (h₂.others k hk).trans (h₁.others k hk)

/-- What two machines differ in does not change when both get the same pending events. -/
theorem OnlyDec.withInput {h : Handle} {s t : State} (hx : OnlyDec h s t) (es : List Event) :
    OnlyDec h { s with input := es } { t with input := es } :=
  ⟨hx.encs, rfl, hx.sink, hx.count, hx.others⟩

/-- Settles O52, by induction on the pending bytes: the first takes one step of the decoder, and the others are then
pending for the decoder which that step leaves. -/
theorem pendingBytesAreConsumedInOrder : Obligations.PendingBytesAreConsumedInOrder := by
  intro s h bytes rest d hd hin
  induction bytes generalizing s d with
  | nil =>
    obtain rfl : s.input = rest := hin
    exact ⟨s, rfl, hd, by simp, rfl, OnlyDec.refl h s⟩
  | cons b bs ih =>
    have hpending : s.input = .byte h b :: (byteEvents h bs ++ rest) := hin
    have hfirst := decStepped_spec (s := { s with input := byteEvents h bs ++ rest }) hd (decStep d b)
    obtain ⟨t, hrun, hdec, houts, hrest, honly⟩ := ih _ _ hfirst.dec? rfl
    refine ⟨t, ?_, hdec, ?_, hrest, (hfirst.2.withInput rest).trans honly⟩
    · rw [List.length_cons, steps_succ (step_byte hpending hd), hrun]
    · rw [houts, hfirst.decOuts, decRun_cons, List.append_assoc]
      rfl

/-! ### Events of different contexts -/

/-- Two machines show the events of context `c` the same: the context itself, and the sink it emits into. -/
def AgreeOn (s s' : State) : Ctx → Prop
  | .dec h => s'.dec? h = s.dec? h
  | .enc h => s'.enc? h = s.enc? h ∧ s'.sinkFallible = s.sinkFallible

/-- The changes of a machine that are one update of the port of context `c`. -/
inductive PortUpdate : Ctx → (State → State) → Prop where
  | dec (h : Handle) (f : DecPort → DecPort) : PortUpdate (.dec h) (fun s => s.updDec h f)
  | enc (h : Handle) (f : EncPort → EncPort) : PortUpdate (.enc h) (fun s => s.updEnc h f)

theorem AgreeOn.refl (s : State) (c : Ctx) : AgreeOn s s c := by
  cases c with
  | dec _ => exact Eq.refl _
  | enc _ => exact ⟨rfl, rfl⟩

theorem AgreeOn.symm {s s' : State} {c : Ctx} (h : AgreeOn s s' c) : AgreeOn s' s c := by
  cases c with
  | dec _ => exact Eq.symm h
  | enc _ => exact ⟨h.1.symm, h.2.symm⟩

/-- An update of one context's port does not show in another context. -/
theorem PortUpdate.agreeOn {c c' : Ctx} {g : State → State} (hg : PortUpdate c g) (hc : c ≠ c') (s : State) :
    AgreeOn s (g s) c' := by
  cases hg with
  | dec h f =>
    cases c' with
    | dec k => exact dec?_updDec_other s h (fun hk => hc (hk ▸ rfl)) f
    | enc k => exact ⟨rfl, rfl⟩
  | enc h f =>
    cases c' with
    | dec k => rfl
    | enc k => exact ⟨enc?_updEnc_other s h (fun hk => hc (hk ▸ rfl)) f, rfl⟩

/-- Updates of the ports of different contexts commute. -/
theorem PortUpdate.comm {c c' : Ctx} {g g' : State → State} (hg : PortUpdate c g) (hg' : PortUpdate c' g')
    (hc : c ≠ c') (s : State) : g' (g s) = g (g' s) := by
  cases hg with
  | dec h f =>
    cases hg' with
    | dec k f' =>
      have hk : h ≠ k := fun hk => hc (hk ▸ rfl)
      simp only [State.updDec, List.modify_modify_ne f f' s.decs hk]
    | enc k f' => rfl
  | enc h f =>
    cases hg' with
    | dec k f' => rfl
    | enc k f' =>
      have hk : h ≠ k := fun hk => hc (hk ▸ rfl)
      simp only [State.updEnc, List.modify_modify_ne f f' s.encs hk]

/-- The answer `run` gives to `s` is one update of the port of `c`, and it gives the same to every machine that shows `c`
the same. -/
def LocalTo (c : Ctx) (run : State → Answer) (s : State) : Prop :=
  ∃ g, PortUpdate c g ∧ ∀ s', AgreeOn s s' c → run s' = .next (g s')

/-- A decoder row that completes is local to its decoder. -/
theorem decRow_local {i : Instr} {h : Handle} {tr : Decoder → Decoder × DecOutcome} {s t : State}
    (hx : decRow i h tr s = .next t) : LocalTo (.dec h) (decRow i h tr) s := by
  obtain ⟨d, hd, hw, hv, -⟩ := decRow_cases hx
  exact ⟨_, .dec h _, fun s' hs => decRow_next (Eq.trans hs hd) hw hv⟩

/-- An encoder row that completes is local to its encoder. -/
theorem encRow_local {i : Instr} {h : Handle} {pre post : Phase} {bytes : Encoder → List Byte} {s t : State}
    (hx : encRow i h pre bytes post s = .next t) : LocalTo (.enc h) (encRow i h pre bytes post) s := by
  obtain ⟨e, he, hw, hp, -⟩ := encRow_cases hx
  refine ⟨_, .enc h (fun p => p.emit s.sinkFallible h e (bytes e) post), fun s' hs => ?_⟩
  rw [← hs.2]
  exact encRow_next (hs.1.trans he) hw hp

/-- The host's operations on a context that exists complete (R132 to R134). -/
theorem execDecReset_next {s : State} {h : Handle} {d : Decoder} (hd : s.dec? h = some d) :
    execDecReset h s = .next (s.updDec h (fun p => { p with ctx := some (freshDecoder d.cap) })) := by
  simp only [execDecReset, hd]

theorem execEncReset_next {s : State} {h : Handle} {e : Encoder} (he : s.enc? h = some e) :
    execEncReset h s = .next (s.updEnc h (fun p => { p with ctx := some (freshEncoder e.lead) })) := by
  simp only [execEncReset, he]

theorem execDrop_dec_next {s : State} {h : Handle} {d : Decoder} (hd : s.dec? h = some d) :
    execDrop (.dec h) s = .next (s.updDec h (fun p => { p with ctx := none })) := by
  simp only [execDrop, hd]

theorem execDrop_enc_next {s : State} {h : Handle} {e : Encoder} (he : s.enc? h = some e) :
    execDrop (.enc h) s = .next (s.updEnc h (fun p => { p with ctx := none })) := by
  simp only [execDrop, he]

theorem execDecReset_local {h : Handle} {s t : State} (hx : execDecReset h s = .next t) :
    LocalTo (.dec h) (execDecReset h) s := by
  cases hd : s.dec? h with
  | none => simp [execDecReset, hd] at hx
  | some d => exact ⟨_, .dec h _, fun s' hs => execDecReset_next (Eq.trans hs hd)⟩

theorem execEncReset_local {h : Handle} {s t : State} (hx : execEncReset h s = .next t) :
    LocalTo (.enc h) (execEncReset h) s := by
  cases he : s.enc? h with
  | none => simp [execEncReset, he] at hx
  | some e => exact ⟨_, .enc h _, fun s' hs => execEncReset_next (hs.1.trans he)⟩

theorem execDrop_local {c : Ctx} {s t : State} (hx : execDrop c s = .next t) : LocalTo c (execDrop c) s := by
  cases c with
  | dec h =>
    cases hd : s.dec? h with
    | none => simp [execDrop, hd] at hx
    | some d => exact ⟨_, .dec h _, fun s' hs => execDrop_dec_next (Eq.trans hs hd)⟩
  | enc h =>
    cases he : s.enc? h with
    | none => simp [execDrop, he] at hx
    | some e => exact ⟨_, .enc h _, fun s' hs => execDrop_enc_next (hs.1.trans he)⟩

/-- An instruction that completes is local to the context its event names. -/
theorem exec_local {i : Instr} {c : Ctx} {s t : State} (hc : (encode i).target = some c) (hx : exec i s = .next t) :
    LocalTo c (exec i) s := by
  cases i with
  | decNEndF _ | decNEndE _ | decNEsc _ | decNLit _ _ | decEEscEnd _ | decEEscEsc _ | decEBad _ _ | decREnd _
  | decRSkip _ _ => cases hc; exact decRow_local hx
  | encStart _ | encDataEnd _ | encDataEsc _ | encDataLit _ _ | encFinish _ => cases hc; exact encRow_local hx
  | decNew _ | encNew _ => cases hc
  | decReset _ => cases hc; exact execDecReset_local hx
  | encReset _ => cases hc; exact execEncReset_local hx
  | drop _ => cases hc; exact execDrop_local hx

/-- Whatever row an event is read as, that row's event names the same context. -/
theorem target_encode_decode (v : View) (e : Event) : (encode (decode v e)).target = e.target := by
  cases e with
  | byte h b =>
    simp only [decode, decodeByte]
    cases v.state with
    | normal =>
      cases byteClass b with
      | cEnd => cases v.bufEmpty <;> rfl
      | cEsc | cEscEnd | cEscEsc | cOther => rfl
    | escaping | errorRecovery => cases byteClass b <;> rfl
  | data h b =>
    simp only [decode, decodeData]
    cases byteClass b <;> rfl
  | start _ | finish _ | decNew _ | encNew _ | decReset _ | encReset _ | drop _ => rfl

/-- An event is read alike in machines that show the context it names the same. -/
theorem AgreeOn.viewFor_eq {s s' : State} {c : Ctx} {e : Event} (h : AgreeOn s s' c) (hc : e.target = some c) :
    s'.viewFor e = s.viewFor e := by
  cases e with
  | byte k b =>
    cases hc
    exact congrArg (fun d => (d.map Decoder.view).getD View.fresh) h
  | start _ | data _ _ | finish _ | decNew _ | encNew _ | decReset _ | encReset _ | drop _ => rfl

/-- A context's reaction that completes is local to it (R160). -/
theorem react_local {s t : State} {e : Event} {c : Ctx} (hc : e.target = some c) (hx : react s e = .next t) :
    LocalTo c (react · e) s := by
  obtain ⟨g, hg, hrun⟩ := exec_local ((target_encode_decode _ e).trans hc) hx
  refine ⟨g, hg, fun s' hs => ?_⟩
  simp only [react, hs.viewFor_eq hc, hrun s' hs]

/-- Settles O38: each reaction updates the port of its own context, sees nothing of the other's update, and updates of
different ports commute. -/
theorem eventsOfDifferentContextsCommute : Obligations.EventsOfDifferentContextsCommute := by
  intro s t u e₁ e₂ c₁ c₂ ht₁ ht₂ hc hx₁ hx₂
  obtain ⟨g₁, hg₁, hrun₁⟩ := react_local ht₁ hx₁
  obtain ⟨g₂, hg₂, hrun₂⟩ := react_local ht₂ hx₂
  obtain rfl : g₁ s = t := Host.Outcome.next.inj ((hrun₁ s (.refl s c₁)).symm.trans hx₁)
  obtain rfl : g₂ (g₁ s) = u := Host.Outcome.next.inj ((hrun₂ _ (.refl _ c₂)).symm.trans hx₂)
  have h₂ : react s e₂ = .next (g₂ s) := hrun₂ s (hg₁.agreeOn hc s).symm
  have h₁ : react (g₂ s) e₁ = .next (g₁ (g₂ s)) := hrun₁ _ (hg₂.agreeOn hc.symm s)
  exact ⟨g₂ s, h₂, by rw [h₁, hg₁.comm hg₂ hc s]⟩

end Sys2Proof.Machine

/-! ### The reading of events: what each row is read from, and the table that says the same -/

namespace Sys2Proof.Machine

/-! #### Well-formedness of the default rows (R73) -/

theorem decNLit_wf_iff {h : Handle} {b : Byte} : (Instr.decNLit h b).wf = true ↔ b ≠ Token.END ∧ b ≠ Token.ESC := by
  simp [Instr.wf]

theorem decEBad_wf_iff {h : Handle} {b : Byte} :
    (Instr.decEBad h b).wf = true ↔ b ≠ Token.ESC_END ∧ b ≠ Token.ESC_ESC := by
  simp [Instr.wf]

theorem decRSkip_wf_iff {h : Handle} {b : Byte} : (Instr.decRSkip h b).wf = true ↔ b ≠ Token.END := by
  simp [Instr.wf]

theorem encDataLit_wf_iff {h : Handle} {b : Byte} :
    (Instr.encDataLit h b).wf = true ↔ b ≠ Token.END ∧ b ≠ Token.ESC := by
  simp [Instr.wf]

/-! #### From an instruction to its event and back -/

/-- A view that selects an instruction reads it from its own event: the parse state (and, for END in `Normal`, the buffer)
is the row's, and the byte of a default row is none that another row of the state takes. -/
theorem decode_encode {v : View} {i : Instr} (hw : i.wf = true) (hv : v.selects i = true) : decode v (encode i) = i := by
  obtain ⟨st, empty⟩ := v
  cases i with
  | decNEndF h =>
    obtain ⟨rfl, rfl⟩ : st = .normal ∧ empty = false := by simpa [View.selects] using hv
    rfl
  | decNEndE h =>
    obtain ⟨rfl, rfl⟩ : st = .normal ∧ empty = true := by simpa [View.selects] using hv
    rfl
  | decNEsc h =>
    obtain rfl : st = .normal := beq_iff_eq.1 hv
    rfl
  | decNLit h b =>
    obtain rfl : st = .normal := beq_iff_eq.1 hv
    obtain ⟨hE, hS⟩ := decNLit_wf_iff.1 hw
    exact decodeByte_literal hE hS empty h
  | decEEscEnd h | decEEscEsc h =>
    obtain rfl : st = .escaping := beq_iff_eq.1 hv
    rfl
  | decEBad h b =>
    obtain rfl : st = .escaping := beq_iff_eq.1 hv
    obtain ⟨hE, hS⟩ := decEBad_wf_iff.1 hw
    exact decodeByte_bad hE hS empty h
  | decREnd h =>
    obtain rfl : st = .errorRecovery := beq_iff_eq.1 hv
    rfl
  | decRSkip h b =>
    obtain rfl : st = .errorRecovery := beq_iff_eq.1 hv
    exact decodeByte_skip (decRSkip_wf_iff.1 hw) empty h
  | encDataLit h b =>
    obtain ⟨hE, hS⟩ := encDataLit_wf_iff.1 hw
    exact decodeData_literal hE hS h
  | encStart _ | encDataEnd _ | encDataEsc _ | encFinish _ | decNew _ | encNew _ | decReset _ | encReset _ | drop _ => rfl

/-- Settles O2: the case split over the rows is `decode_encode`. -/
theorem decodeOfEncodeIsTheInstruction : Obligations.DecodeOfEncodeIsTheInstruction :=
  fun _ _ hw hv => decode_encode hw hv

/-- Settles O5: each word is the event of the instruction it stands for, and the view selects that instruction. -/
theorem sampleWordsAreReadRight : Obligations.SampleWordsAreReadRight :=
  ⟨decode_encode (i := .decNEndE 0) rfl rfl, decode_encode (i := .decNEndF 0) rfl rfl,
    decode_encode (i := .decNEsc 0) rfl rfl, decode_encode (i := .decNLit 0 0b11011100#8) rfl rfl,
    decode_encode (i := .decEEscEnd 0) rfl rfl, decode_encode (i := .decEEscEsc 0) rfl rfl,
    decode_encode (i := .decEBad 0 0b11000000#8) rfl rfl, decode_encode (i := .decREnd 0) rfl rfl,
    decode_encode (i := .decRSkip 0 0b11011011#8) rfl rfl, decode_encode (i := .encDataEnd 0) rfl rfl,
    decode_encode (i := .encDataEsc 0) rfl rfl, decode_encode (i := .encDataLit 0 0b11011101#8) rfl rfl⟩

/-! #### The rows a byte can be read as -/

/-- The opcode map (R66): decoder `h` with the view reads the byte as the row. -/
inductive ByteReading (h : Handle) : View → Byte → Instr → Prop where
  | endFrame : ByteReading h ⟨.normal, false⟩ Token.END (.decNEndF h)
  | endEmpty : ByteReading h ⟨.normal, true⟩ Token.END (.decNEndE h)
  | esc (empty : Bool) : ByteReading h ⟨.normal, empty⟩ Token.ESC (.decNEsc h)
  | literal (empty : Bool) {b : Byte} (hE : b ≠ Token.END) (hS : b ≠ Token.ESC) :
      ByteReading h ⟨.normal, empty⟩ b (.decNLit h b)
  | escEnd (empty : Bool) : ByteReading h ⟨.escaping, empty⟩ Token.ESC_END (.decEEscEnd h)
  | escEsc (empty : Bool) : ByteReading h ⟨.escaping, empty⟩ Token.ESC_ESC (.decEEscEsc h)
  | bad (empty : Bool) {b : Byte} (hE : b ≠ Token.ESC_END) (hS : b ≠ Token.ESC_ESC) :
      ByteReading h ⟨.escaping, empty⟩ b (.decEBad h b)
  | recoveryEnd (empty : Bool) : ByteReading h ⟨.errorRecovery, empty⟩ Token.END (.decREnd h)
  | skip (empty : Bool) {b : Byte} (hE : b ≠ Token.END) : ByteReading h ⟨.errorRecovery, empty⟩ b (.decRSkip h b)

/-- In every view every byte is read as a row of the opcode map (R123). -/
theorem decodeByte_reading (v : View) (h : Handle) (b : Byte) : ByteReading h v b (decodeByte v h b) := by
  obtain ⟨st, empty⟩ := v
  cases st with
  | normal =>
    by_cases hE : b = Token.END
    · subst hE
      cases empty with
      | false => exact .endFrame
      | true => exact .endEmpty
    · by_cases hS : b = Token.ESC
      · subst hS
        exact .esc empty
      · rw [decodeByte_literal hE hS]
        exact .literal empty hE hS
  | escaping =>
    by_cases hE : b = Token.ESC_END
    · subst hE
      exact .escEnd empty
    · by_cases hS : b = Token.ESC_ESC
      · subst hS
        exact .escEsc empty
      · rw [decodeByte_bad hE hS]
        exact .bad empty hE hS
  | errorRecovery =>
    by_cases hE : b = Token.END
    · subst hE
      exact .recoveryEnd empty
    · rw [decodeByte_skip hE]
      exact .skip empty hE

/-! #### From an event to its reading and back -/

/-- The view reads the event as the instruction, and nothing of the event is lost (R66, R123). -/
structure ReadsAs (v : View) (e : Event) (i : Instr) : Prop where
  wf : i.wf = true
  selected : v.selects i = true
  encode_eq : encode i = e

/-- A row of the opcode map is well formed and selected, and holds the byte it was read from. -/
theorem ByteReading.readsAs {h : Handle} {v : View} {b : Byte} {i : Instr} (hr : ByteReading h v b i) :
    ReadsAs v (.byte h b) i := by
  cases hr with
  | literal _ hE hS => exact ⟨decNLit_wf_iff.2 ⟨hE, hS⟩, rfl, rfl⟩
  | bad _ hE hS => exact ⟨decEBad_wf_iff.2 ⟨hE, hS⟩, rfl, rfl⟩
  | skip _ hE => exact ⟨decRSkip_wf_iff.2 hE, rfl, rfl⟩
  | endFrame | endEmpty | esc _ | escEnd _ | escEsc _ | recoveryEnd _ => exact ⟨rfl, rfl, rfl⟩

/-- A payload byte is read as the DATA row of its class, which holds the byte (R66). -/
theorem decodeData_readsAs (v : View) (h : Handle) (b : Byte) : ReadsAs v (.data h b) (decodeData h b) := by
  by_cases hE : b = Token.END
  · subst hE
    exact ⟨rfl, rfl, rfl⟩
  · by_cases hS : b = Token.ESC
    · subst hS
      exact ⟨rfl, rfl, rfl⟩
    · rw [decodeData_literal hE hS]
      exact ⟨encDataLit_wf_iff.2 ⟨hE, hS⟩, rfl, rfl⟩

/-- Reading is total and drops nothing of the event. -/
theorem decode_readsAs (v : View) (e : Event) : ReadsAs v e (decode v e) := by
  cases e with
  | byte h b => exact (decodeByte_reading v h b).readsAs
  | data h b => exact decodeData_readsAs v h b
  | start _ | finish _ | decNew _ | encNew _ | decReset _ | encReset _ | drop _ => exact ⟨rfl, rfl, rfl⟩

/-- Settles O3: a byte is read as a row of the opcode map, a payload byte as its DATA row, and every other event names its
row itself. -/
theorem encodeOfDecodeIsTheEvent : Obligations.EncodeOfDecodeIsTheEvent := by
  intro v e
  obtain ⟨hw, hv, he⟩ := decode_readsAs v e
  exact ⟨hw, hv, he⟩

/-! #### The decoder written from the table alone (R73) -/

/-- A row whose mask keeps every bit fits its own pattern at most. -/
theorem Row.pattern_eq_of_fits {r : Row} {b : Byte} (hm : r.mask = 0xFF#8) (hf : r.fits b = true) : r.pattern = b := by
  have hb : b &&& 0xFF#8 = r.pattern := by
    simpa [hm] using (Bool.and_eq_true_iff.1 hf).1
  rw [← hb]
  exact BitVec.and_allOnes

/-- A byte that is the pattern of none of the 0xFF rows of the current state takes the state's default row. -/
theorem tableRow_default {v : View} {b : Byte}
    (hb : ∀ r ∈ decoderRows, r.listedFor v = true → r.mask = 0xFF#8 → r.pattern ≠ b) :
    tableRow v b = ((decoderRows.filter (·.listedFor v)).find? (·.mask == 0x00#8)).map (·.name) := by
  have hnone : (decoderRows.filter (·.listedFor v)).find? (fun r => r.mask == 0xFF#8 && r.fits b) = none := by
    refine List.find?_eq_none.2 fun r hr hfit => ?_
    obtain ⟨hmem, hlisted⟩ := List.mem_filter.1 hr
    obtain ⟨hm, hf⟩ := Bool.and_eq_true_iff.1 hfit
    exact hb r hmem hlisted (beq_iff_eq.1 hm) (Row.pattern_eq_of_fits (beq_iff_eq.1 hm) hf)
  simp only [tableRow, hnone]

/-- The 0xFF rows of each parse state are those of its tokens. -/
theorem pattern_of_normal (empty : Bool) : ∀ r ∈ decoderRows, r.listedFor ⟨.normal, empty⟩ = true → r.mask = 0xFF#8 →
    r.pattern = Token.END ∨ r.pattern = Token.ESC := by
  cases empty <;> decide

theorem pattern_of_escaping (empty : Bool) : ∀ r ∈ decoderRows, r.listedFor ⟨.escaping, empty⟩ = true →
    r.mask = 0xFF#8 → r.pattern = Token.ESC_END ∨ r.pattern = Token.ESC_ESC := by
  cases empty <;> decide

theorem pattern_of_errorRecovery (empty : Bool) : ∀ r ∈ decoderRows, r.listedFor ⟨.errorRecovery, empty⟩ = true →
    r.mask = 0xFF#8 → r.pattern = Token.END := by
  cases empty <;> decide

/-- The table names the row of the opcode map. -/
theorem ByteReading.tableRow_eq {h : Handle} {v : View} {b : Byte} {i : Instr} (hr : ByteReading h v b i) :
    tableRow v b = some i.rowName := by
  cases hr with
  | literal empty hE hS =>
    rw [tableRow_default (b := b) fun r hr hl hm hp =>
      (pattern_of_normal empty r hr hl hm).elim (hE <| hp.symm.trans ·) (hS <| hp.symm.trans ·)]
    cases empty <;> rfl
  | bad empty hE hS =>
    rw [tableRow_default (b := b) fun r hr hl hm hp =>
      (pattern_of_escaping empty r hr hl hm).elim (hE <| hp.symm.trans ·) (hS <| hp.symm.trans ·)]
    cases empty <;> rfl
  | skip empty hE =>
    rw [tableRow_default (b := b) fun r hr hl hm hp => hE (hp.symm.trans (pattern_of_errorRecovery empty r hr hl hm))]
    cases empty <;> rfl
  | endFrame | endEmpty => rfl
  | esc empty | escEnd empty | escEsc empty | recoveryEnd empty => cases empty <;> rfl

/-- Settles O4: both decoders name the row of the opcode map; the table's default row is reached by exactly the bytes that
the model reads as a default row. -/
theorem byteRowsFollowTheTable : Obligations.ByteRowsFollowTheTable :=
  fun v h b => (decodeByte_reading v h b).tableRow_eq

/-! #### A row that is not selected -/

/-- A decoder row that the view or the byte does not select is refused. -/
theorem decRow_notSelected {i : Instr} {h : Handle} {s : State} {d : Decoder} (hd : s.dec? h = some d)
    (hsel : (i.wf && d.view.selects i) = false) (tr : Decoder → Decoder × DecOutcome) :
    decRow i h tr s = .refused .rowNotSelected := by
  simp [decRow, hd, hsel]

/-- An encoder row that the byte does not select is refused, in either phase. -/
theorem encRow_notSelected {i : Instr} {h : Handle} {s : State} {e : Encoder} (he : s.enc? h = some e)
    (hw : i.wf = false) (pre : Phase) (bytes : Encoder → List Byte) (post : Phase) :
    encRow i h pre bytes post s = .refused .rowNotSelected := by
  simp [encRow, he, hw]

/-- An instruction read from a byte runs as a row of the decoder it was presented to. -/
theorem exec_eq_decRow {i : Instr} {h : Handle} {b : Byte} (hi : encode i = .byte h b) :
    ∃ tr, ∀ s, exec i s = decRow i h tr s := by
  cases i with
  | decNEndF _ | decNEndE _ | decNEsc _ | decNLit _ _ | decEEscEnd _ | decEEscEsc _ | decEBad _ _ | decREnd _
  | decRSkip _ _ => cases hi; exact ⟨_, fun _ => rfl⟩
  | encStart _ | encDataEnd _ | encDataEsc _ | encDataLit _ _ | encFinish _
  | decNew _ | encNew _ | decReset _ | encReset _ | drop _ => cases hi

/-- An instruction read from a payload byte runs as a row of the encoder it was given to. -/
theorem exec_eq_encRow {i : Instr} {h : Handle} {b : Byte} (hi : encode i = .data h b) :
    ∃ pre bytes post, ∀ s, exec i s = encRow i h pre bytes post s := by
  cases i with
  | encDataEnd _ | encDataEsc _ | encDataLit _ _ => cases hi; exact ⟨_, _, _, fun _ => rfl⟩
  | decNEndF _ | decNEndE _ | decNEsc _ | decNLit _ _ | decEEscEnd _ | decEEscEsc _ | decEBad _ _ | decREnd _
  | decRSkip _ _ | encStart _ | encFinish _ | decNew _ | encNew _ | decReset _ | encReset _ | drop _ => cases hi

/-- Settles O28: the instruction runs as a row of its context, and a row tests its selection before anything else. -/
theorem unselectedRowIsRefused : Obligations.UnselectedRowIsRefused := by
  refine ⟨?_, ?_⟩
  · intro s i h b d hi hd hsel
    obtain ⟨tr, hrun⟩ := exec_eq_decRow hi
    rw [hrun s, decRow_notSelected hd hsel]
  · intro s i h b e hi he hw
    obtain ⟨pre, bytes, post, hrun⟩ := exec_eq_encRow hi
    rw [hrun s, encRow_notSelected he hw]

end Sys2Proof.Machine

/-! ### The rows of the encoder: in its phase a row writes its bytes, out of it the row is refused -/

namespace Sys2Proof.Machine

section
variable {s : State} {h : Handle} {e : Encoder} {i : Instr} {pre post : Phase} {bytes : Encoder → List Byte}

/-- An encoder row that is out of its phase is refused (R88). -/
theorem encRow_outOfOrder (he : s.enc? h = some e) (hw : i.wf = true) (hp : e.phase ≠ pre) :
    encRow i h pre bytes post s = .refused .encoderEventOrder := by
  simp [encRow, he, hw, hp]

/-- On the core's sink an encoder row in its phase writes all its bytes (R46). -/
theorem encRow_stepped (he : s.enc? h = some e) (hsink : s.sinkFallible = false) (hw : i.wf = true) (hp : e.phase = pre) :
    ∃ t, encRow i h pre bytes post s = .next t ∧ EncStepped h s t { e with phase := post } (bytes e) :=
  ⟨_, encRow_next he hw hp, hsink ▸ encStepped_spec he (bytes e) post⟩

/-- On a sink that may fail an encoder row in its phase writes what the draw lets through (R91). -/
theorem encRow_drawn (he : s.enc? h = some e) (hsink : s.sinkFallible = true) (hw : i.wf = true) (hp : e.phase = pre) :
    ∃ t, encRow i h pre bytes post s = .next t ∧ EncDrawn h s t e (bytes e) post :=
  ⟨_, encRow_next he hw hp, hsink ▸ encDrawn_spec he (bytes e) post⟩

/-- A DATA row leaves the whole context as it was (R81 to R83). -/
theorem encRow_data_stepped (he : s.enc? h = some e) (hsink : s.sinkFallible = false) (hw : i.wf = true)
    (hp : e.phase = .inFrame) :
    ∃ t, encRow i h .inFrame bytes .inFrame s = .next t ∧ EncStepped h s t e (bytes e) := by
  have hsame : { e with phase := .inFrame } = e := by rw [← hp]
  simpa only [hsame] using encRow_stepped (post := .inFrame) he hsink hw hp

end

/-- Settles O15: the row of START, on the core's sink. -/
theorem startEmitsTheLead : Obligations.StartEmitsTheLead := by
  intro s h e he hsink
  exact ⟨fun _ => rfl, fun hp => encRow_stepped he hsink rfl hp, fun hp => encRow_outOfOrder he rfl (by simp [hp])⟩

/-- Settles O16: the DATA row of END, on the core's sink. -/
theorem dataEndIsEscaped : Obligations.DataEndIsEscaped := by
  intro s h e he hsink
  exact ⟨fun _ => rfl, fun hp => encRow_data_stepped he hsink rfl hp, fun hp => encRow_outOfOrder he rfl (by simp [hp])⟩

/-- Settles O17: the DATA row of ESC, on the core's sink. -/
theorem dataEscIsEscaped : Obligations.DataEscIsEscaped := by
  intro s h e he hsink
  exact ⟨fun _ => rfl, fun hp => encRow_data_stepped he hsink rfl hp, fun hp => encRow_outOfOrder he rfl (by simp [hp])⟩

/-- Settles O18: the default DATA row is well formed for exactly the bytes read as it, and it runs on the core's sink. -/
theorem dataLiteralIsEmittedUnchanged : Obligations.DataLiteralIsEmittedUnchanged := by
  intro s h e b he hsink hE hS
  have hw : (Instr.encDataLit h b).wf = true := encDataLit_wf_iff.2 ⟨hE, hS⟩
  exact ⟨fun _ => decodeData_literal hE hS h, fun hp => encRow_data_stepped he hsink hw hp,
    fun hp => encRow_outOfOrder he hw (by simp [hp])⟩

/-- Settles O19: the row of FINISH, on the core's sink. -/
theorem finishEmitsTheTrailingEnd : Obligations.FinishEmitsTheTrailingEnd := by
  intro s h e he hsink
  exact ⟨fun _ => rfl, fun hp => encRow_stepped he hsink rfl hp, fun hp => encRow_outOfOrder he rfl (by simp [hp])⟩

/-! #### The order of encoder events (R88) -/

/-- Whatever the payload byte, the row it is read as runs within the frame and writes `EncByte` of it. -/
theorem exec_decodeData (h : Handle) (b : Byte) (s : State) :
    exec (decodeData h b) s = encRow (decodeData h b) h .inFrame (fun _ => encByte b) .inFrame s := by
  by_cases hE : b = Token.END
  · subst hE
    rfl
  · by_cases hS : b = Token.ESC
    · subst hS
      rfl
    · rw [decodeData_literal hE hS, encByte_other hE hS]
      rfl

section
variable {s : State} {h : Handle} {e : Encoder}

theorem react_start_outOfOrder (he : s.enc? h = some e) (hp : e.phase = .inFrame) :
    react s (.start h) = .refused .encoderEventOrder :=
  encRow_outOfOrder (i := .encStart h) he rfl (by simp [hp])

theorem react_data_outOfOrder (he : s.enc? h = some e) (hp : e.phase = .idle) (b : Byte) :
    react s (.data h b) = .refused .encoderEventOrder :=
  (exec_decodeData h b s).trans (encRow_outOfOrder he (decodeData_readsAs View.fresh h b).wf (by simp [hp]))

theorem react_finish_outOfOrder (he : s.enc? h = some e) (hp : e.phase = .idle) :
    react s (.finish h) = .refused .encoderEventOrder :=
  encRow_outOfOrder (i := .encFinish h) he rfl (by simp [hp])

/-- The context of an encoder that exists, after an update of its port. -/
theorem enc?_updEnc_self {f : EncPort → EncPort} {c : Option Encoder} (he : s.enc? h = some e)
    (hf : ∀ p, (f p).ctx = c) : (s.updEnc h f).enc? h = c := by
  obtain ⟨p, hp, -⟩ := enc?_eq_some.1 he
  rw [State.enc?, updEnc_port_self hp]
  exact hf p

/-- On the core's sink an emission takes the encoder to the phase of its row. -/
theorem enc?_emitted (he : s.enc? h = some e) (hsink : s.sinkFallible = false) (bytes : List Byte) (ph : Phase) :
    (s.updEnc h (fun p => p.emit s.sinkFallible h e bytes ph)).enc? h = some { e with phase := ph } :=
  enc?_updEnc_self he fun p => by rw [hsink, emit_infallible]

end

/-- A run does not get past a pending event that is refused, however many steps it is given. -/
theorem steps_refused {s : State} {ev : Event} {r : Refusal} (hx : react s ev = .refused r) (k : Nat) (rest : List Event) :
    steps (k + 1) { s with input := ev :: rest } = .refused r := by
  have hstep : step { s with input := ev :: rest } = Answer.withInput (react s ev) rest :=
    (step_event rfl).trans (exec_withInput _ s rest)
  simp only [steps, hstep, hx, Answer.withInput]

/-- Settles O20: each event of a frame is a row that runs in one phase only, and a run ends at the first refusal. -/
theorem encoderEventsKeepTheirOrder : Obligations.EncoderEventsKeepTheirOrder := by
  intro s h e b k rest he
  refine ⟨⟨_, execEncReset_next he, enc?_updEnc_self he fun _ => rfl⟩,
    ⟨_, execDrop_enc_next he, enc?_updEnc_self he fun _ => rfl⟩, fun hp => ?_, fun hp => ?_⟩
  · have hdata := react_data_outOfOrder he hp b
    have hfinish := react_finish_outOfOrder he hp
    exact ⟨fun hsink => ⟨_, react_start he hp, enc?_emitted he hsink _ _⟩, hdata, hfinish,
      steps_refused hdata k rest, steps_refused hfinish k rest⟩
  · have hstart := react_start_outOfOrder he hp
    exact ⟨fun hsink => ⟨_, react_data he hp b, enc?_emitted he hsink _ _⟩,
      fun hsink => ⟨_, react_finish he hp, enc?_emitted he hsink _ _⟩, hstart, steps_refused hstart k rest⟩

end Sys2Proof.Machine

/-! ### The wire bytes of a frame: their length and their shape -/

namespace Sys2Proof.Machine

/-- The wire bytes of a payload byte are two where it is END or ESC, else one (R85). -/
theorem encByte_length (b : Byte) : (encByte b).length = 1 + if b == Token.END || b == Token.ESC then 1 else 0 := by
  by_cases hE : b = Token.END
  · subst hE
    rfl
  · by_cases hS : b = Token.ESC
    · subst hS
      rfl
    · simp [encByte_other hE hS, hE, hS]

theorem encByte_ne_nil (b : Byte) : encByte b ≠ [] := by
  intro hb
  have hlen := encByte_length b
  rw [hb, List.length_nil] at hlen
  omega

/-- A stuffed payload is longer than the payload by its bytes that are escaped. -/
theorem body_length (f : List Byte) :
    (f.flatMap encByte).length = f.length + f.countP (fun b => b == Token.END || b == Token.ESC) := by
  induction f with
  | nil => rfl
  | cons b f ih =>
    rw [List.flatMap_cons, List.length_append, ih, encByte_length, List.countP_cons, List.length_cons]
    omega

theorem leadBytes_length (lead : Bool) : (leadBytes lead).length = if lead then 1 else 0 := by
  cases lead <;> rfl

/-- Settles O44: the stuffed payload between the delimiters, of whose bytes at most all are escaped. -/
theorem encodedLength : Obligations.EncodedLength := by
  intro lead f
  have hcount : f.countP (fun b => b == Token.END || b == Token.ESC) ≤ f.length := List.countP_le_length
  have hlead : (if lead then 1 else 0) ≤ 1 := by cases lead <;> decide
  have hlen : (encodeFrame lead f).length =
      f.length + 1 + (if lead then 1 else 0) + f.countP (fun b => b == Token.END || b == Token.ESC) := by
    rw [encodeFrame, List.length_append, List.length_append, leadBytes_length, body_length, List.length_singleton]
    omega
  exact ⟨hlen, by omega, by omega⟩

/-- A stuffed payload is empty only where the payload is (R89 d). -/
theorem body_eq_nil_iff (f : List Byte) : f.flatMap encByte = [] ↔ f = [] := by
  cases f with
  | nil => simp
  | cons b f => simp [encByte_ne_nil b]

/-- A stuffed payload holds an ESC only with its code. -/
theorem body_paired (f : List Byte) : escPaired (f.flatMap encByte) = true := by
  induction f with
  | nil => rfl
  | cons b f ih => exact escPaired_append (encByte_paired b) ih

/-- Right behind an ESC of a paired stream stands a code (R89 c). -/
theorem code_after_ESC_of_escPaired {xs : List Byte} (hx : escPaired xs = true) {i : Nat} (hi : xs[i]? = some Token.ESC) :
    xs[i + 1]? = some Token.ESC_END ∨ xs[i + 1]? = some Token.ESC_ESC := by
  induction xs using escPaired.induct generalizing i with
  | case1 => simp at hi
  | case2 b =>
    have hb : b ≠ Token.ESC := by simpa [escPaired] using hx
    cases i with
    | zero => exact absurd (Option.some.inj hi) hb
    | succ i => simp at hi
  | case3 c rest ih =>
    obtain ⟨hc, hrest⟩ : (c = Token.ESC_END ∨ c = Token.ESC_ESC) ∧ escPaired rest = true := by
      simpa [escPaired] using hx
    match i with
    | 0 => exact hc.imp (congrArg some) (congrArg some)
    | 1 =>
      obtain rfl : c = Token.ESC := Option.some.inj hi
      simp at hc
    | i + 2 => exact ih hrest hi
  | case4 b c rest hb ih =>
    have hrest : escPaired (c :: rest) = true := by simpa [escPaired, hb] using hx
    cases i with
    | zero => exact absurd (Option.some.inj hi) hb
    | succ i => exact ih hrest hi

/-- A paired stream without END is a `stuffed-body` of R63. -/
theorem stuffedBody_of_escPaired {xs : List Byte} (hx : escPaired xs = true) (hE : Token.END ∉ xs) :
    stuffedBody xs = true := by
  induction xs using escPaired.induct with
  | case1 => rfl
  | case2 b =>
    have hb : b ≠ Token.END := fun hb => hE (by simp [hb])
    simpa [stuffedBody, hb, escPaired] using hx
  | case3 c rest ih =>
    obtain ⟨hc, hrest⟩ : (c = Token.ESC_END ∨ c = Token.ESC_ESC) ∧ escPaired rest = true := by
      simpa [escPaired] using hx
    have hEr : Token.END ∉ rest := fun hm => hE (by simp [hm])
    simpa [stuffedBody] using ⟨hc, ih hrest hEr⟩
  | case4 b c rest hb ih =>
    have hrest : escPaired (c :: rest) = true := by simpa [escPaired, hb] using hx
    obtain ⟨hbE, hEr⟩ := not_or.1 (mt List.mem_cons.2 hE)
    simpa [stuffedBody, hb, Ne.symm hbE] using ih hrest hEr

/-- Between its delimiters a wire frame holds the stuffed payload. -/
theorem encodeFrame_body (lead : Bool) (f : List Byte) :
    ((encodeFrame lead f).drop (if lead then 1 else 0)).dropLast = f.flatMap encByte := by
  cases lead <;> simp [encodeFrame, leadBytes]

/-- Settles O45: all four properties are those of the stuffed payload, in which END does not occur and every ESC is paired. -/
theorem wireBytesAreStuffed : Obligations.WireBytesAreStuffed := by
  rintro lead f body rfl
  rw [encodeFrame_body]
  have hpaired := body_paired f
  have hEND := END_not_mem_body f
  refine ⟨⟨by simp [encodeFrame], ?_⟩, hEND, fun i hi => code_after_ESC_of_escPaired hpaired hi, body_eq_nil_iff f,
    f.flatMap encByte, rfl, stuffedBody_of_escPaired hpaired hEND⟩
  rintro rfl
  rfl

end Sys2Proof.Machine

/-! ### The call `Encode` on the machine -/

namespace Sys2Proof.Machine

/-- How a call that is to write `wire` on encoder `h`, whose flag is `lead`, ends (R86, R91): all of it is written, or, on a
sink that may fail, the outcomes of some whole events and of the failing one are recorded, which wrote a leading part of
what stands before the last byte. The encoder is idle in either case, and nothing else changed. -/
inductive CallEnds (h : Handle) (s : State) (lead : Bool) (wire : List Byte) : EncOutcome → State → Prop where
  | written {t : State} {outs : List EncOutcome} (hran : EncRan h s t ⟨lead, .idle⟩ wire outs) :
      CallEnds h s lead wire (.emitted wire) t
  | failed {t : State} (ws : List (List Byte)) (w : List Byte) (hsink : s.sinkFallible = true)
      (hw : ws.flatten ++ w <+: wire.dropLast)
      (hran : EncRan h s t ⟨lead, .idle⟩ (ws.flatten ++ w) (ws.map .emitted ++ [.errIo w])) :
      CallEnds h s lead wire (.errIo (ws.flatten ++ w)) t

/-- The events, issued one after another, complete, and are to write `wire`. -/
def Writes (h : Handle) (s : State) (lead : Bool) (es : List Event) (wire : List Byte) : Prop :=
  ∃ o t, issueEncode h es s = some (o, t) ∧ CallEnds h s lead wire o t

/-- A call whose first event was written whole ends as the rest of it does. -/
theorem CallEnds.after {h : Handle} {s u t : State} {e : Encoder} {lead : Bool} {bytes wire : List Byte} {o : EncOutcome}
    (hfirst : EncRan h s u e bytes [.emitted bytes]) (hne : wire ≠ []) (hrest : CallEnds h u lead wire o t) :
    CallEnds h s lead (bytes ++ wire) (o.prepend bytes) t := by
  cases hrest with
  | written hran => exact .written (hfirst.trans hran)
  | failed ws w hsink hw hran =>
    have hw' : (bytes :: ws).flatten ++ w <+: (bytes ++ wire).dropLast := by
      rw [List.dropLast_append_of_ne_nil hne, List.flatten_cons, List.append_assoc]
      exact (List.prefix_append_right_inj bytes).2 hw
    have hran' : EncRan h s t ⟨lead, .idle⟩ ((bytes :: ws).flatten ++ w) ((bytes :: ws).map .emitted ++ [.errIo w]) := by
      simpa using hfirst.trans hran
    simpa using CallEnds.failed (bytes :: ws) w (hfirst.only.sink ▸ hsink) hw' hran'

section
variable {s : State} {h : Handle} {e : Encoder}

/-- One event and then more of them: where its own write fails, the call ends there. -/
theorem writes_cons {ev : Event} {es : List Event} {bytes wire : List Byte} {ph : Phase} (he : s.enc? h = some e)
    (hx : react s ev = .next (s.updEnc h (fun p => p.emit s.sinkFallible h e bytes ph))) (hne : wire ≠ [])
    (hrest : ∀ u, u.enc? h = some { e with phase := ph } → Writes h u e.lead es wire) :
    Writes h s e.lead (ev :: es) (bytes ++ wire) := by
  obtain hran | ⟨hsink, w, hw, hran⟩ := emit_ran he bytes ph
  · obtain ⟨o, t, hissue, hends⟩ := hrest _ hran.enc
    exact ⟨_, t, by rw [issueEncode_emitted hx hran.last, hissue]; rfl, hends.after hran hne⟩
  · refine ⟨_, _, issueEncode_errIo hx hran.last es, .failed [] w hsink ?_ hran⟩
    rw [List.dropLast_append_of_ne_nil hne]
    exact hw.trans ((List.dropLast_prefix bytes).trans (List.prefix_append bytes _))

/-- FINISH alone writes the trailing END, or nothing. -/
theorem writes_finish (he : s.enc? h = some e) (hp : e.phase = .inFrame) :
    Writes h s e.lead [.finish h] [Token.END] := by
  have hx := react_finish he hp
  obtain hran | ⟨hsink, w, hw, hran⟩ := emit_ran he [Token.END] .idle
  · exact ⟨_, _, issueEncode_emitted hx hran.last [], .written hran⟩
  · exact ⟨_, _, issueEncode_errIo hx hran.last [], .failed [] w hsink hw hran⟩

/-- Within the frame, the events of a payload and FINISH write the stuffed payload and the trailing END. -/
theorem writes_payload (f : List Byte) (he : s.enc? h = some e) (hp : e.phase = .inFrame) :
    Writes h s e.lead (f.map (Event.data h) ++ [.finish h]) (f.flatMap encByte ++ [Token.END]) := by
  induction f generalizing s e with
  | nil => exact writes_finish he hp
  | cons b f ih =>
    rw [List.flatMap_cons, List.append_assoc]
    exact writes_cons he (react_data he hp b) (by simp) fun u hu => ih (e := { e with phase := .inFrame }) hu rfl

/-- The events of `Encode(f)` write the wire frame of `f` (R86). -/
theorem writes_encodeFrame (f : List Byte) (he : s.enc? h = some e) (hp : e.phase = .idle) :
    Writes h s e.lead (encodeEvents h f) (encodeFrame e.lead f) := by
  rw [encodeFrame, List.append_assoc]
  exact writes_cons he (react_start he hp) (by simp) fun u hu =>
    writes_payload (e := { e with phase := .inFrame }) f hu rfl

end

/-- Settles O21: the rows by what a draw lets through; the call by the way it ends, which is how the first event that fails
ends it. -/
theorem fallibleSinkWritesAPrefix : Obligations.FallibleSinkWritesAPrefix := by
  intro s h e he hsink
  refine ⟨fun hp => encRow_drawn he hsink rfl hp, fun hp => ⟨encRow_drawn he hsink rfl hp, encRow_drawn he hsink rfl hp,
    fun b hE hS => encRow_drawn he hsink (encDataLit_wf_iff.2 ⟨hE, hS⟩) hp, encRow_drawn he hsink rfl hp⟩,
    fun hp f => ?_⟩
  obtain ⟨o, t, hcall, hends⟩ := writes_encodeFrame f he hp
  refine ⟨o, t, hcall, ?_⟩
  cases hends with
  | written hran => exact ⟨hran.tx, hran.enc, hran.only, .inl rfl⟩
  | failed ws w _ hw hran =>
    exact ⟨hran.tx, hran.enc, hran.only, .inr ⟨ws, w, rfl, hw, by rw [hran.outs, List.append_assoc]⟩⟩

/-! #### On the core's sink -/

section
variable {s : State} {h : Handle} {lead : Bool}

/-- On the core's sink the call writes the whole wire frame and leaves the encoder idle (R86). -/
theorem callEncode_written (f : List Byte) (he : s.enc? h = some ⟨lead, .idle⟩) (hsink : s.sinkFallible = false) :
    ∃ t outs, callEncode h f s = some (.emitted (encodeFrame lead f), t) ∧
      EncRan h s t ⟨lead, .idle⟩ (encodeFrame lead f) outs := by
  obtain ⟨o, t, hcall, hends⟩ := writes_encodeFrame f he rfl
  cases hends with
  | written hran => exact ⟨t, _, hcall, hran⟩
  | failed _ _ hfallible => simp [hsink] at hfallible

/-- Where no event is issued nothing changes. -/
theorem EncRan.refl {e : Encoder} (he : s.enc? h = some e) : EncRan h s s e [] [] where
  enc := he
  tx := (List.append_nil _).symm
  outs := (List.append_nil _).symm
  only := ⟨rfl, rfl, rfl, rfl, fun _ _ => rfl⟩

/-- On the core's sink frames encoded in turn are written one after another (R90). -/
theorem callEncodes_written (fs : List (List Byte)) (he : s.enc? h = some ⟨lead, .idle⟩) (hsink : s.sinkFallible = false) :
    ∃ t outs, callEncodes h fs s = some (fs.map (fun f => .emitted (encodeFrame lead f)), t) ∧
      EncRan h s t ⟨lead, .idle⟩ (fs.flatMap (encodeFrame lead)) outs := by
  induction fs generalizing s with
  | nil => exact ⟨s, [], rfl, .refl he⟩
  | cons f fs ih =>
    obtain ⟨u, _, hcall, hfirst⟩ := callEncode_written f he hsink
    obtain ⟨t, _, hcalls, hrest⟩ := ih hfirst.enc (hfirst.only.sink.trans hsink)
    exact ⟨t, _, by simp [callEncodes, hcall, hcalls], hfirst.trans hrest⟩

end

/-- Settles O46: the call writes the wire frame, and what a call writes whole its events write when they are pending. -/
theorem encodeCallAppendsTheWireFrame : Obligations.EncodeCallAppendsTheWireFrame := by
  intro s h lead f he hsink
  obtain ⟨t, _, hcall, hran⟩ := callEncode_written f he hsink
  have hsteps := issueEncode_steps (encodeEvents h f) s.input hcall
  have hlen : (encodeEvents h f).length = f.length + 2 := by simp [encodeEvents]
  have hinput : { t with input := s.input } = t := by rw [← hran.only.input]
  rw [hlen, hinput] at hsteps
  exact ⟨t, encodeFrame lead f, hcall, hsteps, rfl, hran.tx, hran.enc, hran.only⟩

/-- Settles O47: by induction on the frames, each call leaving the encoder idle for the next. -/
theorem encodingInTurnConcatenates : Obligations.EncodingInTurnConcatenates := by
  intro s h lead fs he hsink
  obtain ⟨t, _, hcalls, hran⟩ := callEncodes_written fs he hsink
  exact ⟨t, hcalls, hran.tx, hran.enc, hran.only⟩

end Sys2Proof.Machine

/-! ### The decoder's step: the table, the rows on the machine, and what a step can report -/

namespace Sys2Proof.Machine

/-! #### The table (R100) -/

/-- Settles O30: each row of the table is an equation of `decStep`; where a row appends, the bound decides. -/
theorem decStepIsTheStateTable : Obligations.DecStepIsTheStateTable := by
  intro buf cap b
  refine ⟨decStep_normal_END_nonempty buf cap, decStep_normal_END_empty cap, decStep_normal_ESC buf cap, ?_, ?_,
    fun hroom => tryAppend_room hroom Token.END, fun hfull => tryAppend_full hfull Token.END,
    fun hroom => tryAppend_room hroom Token.ESC, fun hfull => tryAppend_full hfull Token.ESC,
    decStep_escaping_bad buf cap, decStep_recovery_END buf cap, decStep_recovery_skip buf cap⟩
  · intro hE hS hroom
    exact (decStep_normal_literal buf cap hE hS).trans (tryAppend_room hroom b)
  · intro hE hS hfull
    exact (decStep_normal_literal buf cap hE hS).trans (tryAppend_full hfull b)

/-! #### The rows on the machine (R101 to R109) -/

/-- A byte presented to a decoder that exists is executed as `DecStep` says. -/
theorem react_byte {s : State} {h : Handle} {d : Decoder} (hd : s.dec? h = some d) (b : Byte) :
    react s (.byte h b) = .next (s.decStepped h (decStep d b)) := by
  rw [react, viewFor_byte hd]
  exact exec_decodeByte hd b

/-- Settles O29: the row read does what `DecStep` says, and a decoder step changes its own port only. -/
theorem byteStepIsDecStep : Obligations.ByteStepIsDecStep :=
  fun _ _ b _ hd => ⟨_, react_byte hd b, decStepped_spec hd _⟩

/-- What a row does on the machine: the decoder reads the byte as the row, and `DecStep` says its effect. -/
theorem rowStep_of_decStep {s : State} {h : Handle} {d d' : Decoder} {b : Byte} {i : Instr} {o : DecOutcome}
    (hd : s.dec? h = some d) (hread : decodeByte d.view h b = i) (hstep : decStep d b = (d', o)) :
    RowStep s h b i d' o := by
  have hexec := exec_decodeByte hd b
  have hspec := decStepped_spec hd (decStep d b)
  rw [hread] at hexec
  rw [hstep] at hexec hspec
  exact ⟨by rw [viewFor_byte hd]; exact hread, _, hexec, hspec⟩

/-- Settles O6: the row of END in `Normal` with bytes accumulated. -/
theorem endDeliversTheFrame : Obligations.EndDeliversTheFrame := by
  rintro s h ⟨_, buf, cap⟩ hd rfl hbuf
  refine rowStep_of_decStep hd ?_ (decStep_normal_END_nonempty buf cap hbuf)
  cases buf with
  | nil => exact absurd rfl hbuf
  | cons _ _ => rfl

/-- Settles O7: the row of END in `Normal` with nothing accumulated. -/
theorem endWithEmptyBufferIsIgnored : Obligations.EndWithEmptyBufferIsIgnored := by
  rintro s h ⟨_, _, cap⟩ hd rfl rfl
  exact rowStep_of_decStep hd rfl (decStep_normal_END_empty cap)

/-- Settles O8: the row of ESC in `Normal`. -/
theorem escBeginsAnEscape : Obligations.EscBeginsAnEscape := by
  rintro s h ⟨_, buf, cap⟩ hd rfl
  exact rowStep_of_decStep hd rfl (decStep_normal_ESC buf cap)

/-- Settles O9: a literal is read as such whatever the buffer holds, and appends as the bound allows. -/
theorem literalIsAppendedOrOversized : Obligations.LiteralIsAppendedOrOversized := by
  rintro s h ⟨_, buf, cap⟩ b hd rfl hE hS
  have hread := decodeByte_literal hE hS buf.isEmpty h
  have hstep := decStep_normal_literal buf cap hE hS
  exact ⟨fun hroom => rowStep_of_decStep hd hread (hstep.trans (tryAppend_room hroom b)),
    fun hfull => rowStep_of_decStep hd hread (hstep.trans (tryAppend_full hfull b))⟩

/-- Settles O10: the code of END appends END as the bound allows. -/
theorem escEndAppendsEnd : Obligations.EscEndAppendsEnd := by
  rintro s h ⟨_, buf, cap⟩ hd rfl
  exact ⟨fun hroom => rowStep_of_decStep hd rfl (tryAppend_room hroom Token.END),
    fun hfull => rowStep_of_decStep hd rfl (tryAppend_full hfull Token.END)⟩

/-- Settles O11: the code of ESC appends ESC as the bound allows. -/
theorem escEscAppendsEsc : Obligations.EscEscAppendsEsc := by
  rintro s h ⟨_, buf, cap⟩ hd rfl
  exact ⟨fun hroom => rowStep_of_decStep hd rfl (tryAppend_room hroom Token.ESC),
    fun hfull => rowStep_of_decStep hd rfl (tryAppend_full hfull Token.ESC)⟩

/-- Settles O12: in `Escaping` a byte that is neither code is a violation. -/
theorem badCodeRaisesFramingError : Obligations.BadCodeRaisesFramingError := by
  rintro s h ⟨_, buf, cap⟩ b hd rfl hE hS
  exact rowStep_of_decStep hd (decodeByte_bad hE hS buf.isEmpty h) (decStep_escaping_bad buf cap hE hS)

/-- Settles O13: the row of END in `ErrorRecovery`. -/
theorem endLeavesRecovery : Obligations.EndLeavesRecovery := by
  rintro s h ⟨_, buf, cap⟩ hd rfl
  exact rowStep_of_decStep hd rfl (decStep_recovery_END buf cap)

/-- Settles O14: in `ErrorRecovery` a byte that is not END is skipped. -/
theorem recoverySkipsOtherBytes : Obligations.RecoverySkipsOtherBytes := by
  rintro s h ⟨_, buf, cap⟩ b hd rfl hE
  exact rowStep_of_decStep hd (decodeByte_skip hE buf.isEmpty h) (decStep_recovery_skip buf cap hE)

/-! #### What a step can do and report -/

section
variable {h : Handle} {st : ParseState} {buf : List Byte} {cap : Option Nat} {empty : Bool} {b : Byte} {i : Instr}

/-- `DecStep` makes the transition of the row that the byte is read as. -/
theorem ByteReading.transition (hr : ByteReading h ⟨st, empty⟩ b i) (hempty : buf.isEmpty = empty) :
    DecTransition ⟨st, buf, cap⟩ (decStep ⟨st, buf, cap⟩ b) := by
  cases hr with
  | endFrame =>
    have hbuf : buf ≠ [] := List.isEmpty_eq_false_iff.1 hempty
    rw [decStep_normal_END_nonempty buf cap hbuf]
    exact .delivered rfl hbuf
  | endEmpty =>
    obtain rfl := List.isEmpty_iff.1 hempty
    exact .unchanged (.inl ⟨rfl, rfl⟩)
  | esc _ => exact .escaped rfl
  | literal _ hE hS =>
    rw [decStep_normal_literal buf cap hE hS]
    exact .appended b (.inl rfl)
  | escEnd _ => exact .appended Token.END (.inr rfl)
  | escEsc _ => exact .appended Token.ESC (.inr rfl)
  | bad _ hE hS =>
    rw [decStep_escaping_bad buf cap hE hS]
    exact .violated rfl
  | recoveryEnd _ => exact .recovered rfl
  | skip _ hE =>
    rw [decStep_recovery_skip buf cap hE]
    exact .unchanged (.inr rfl)

/-- Only the rows that append and the row of a bad code can report an error (R104 to R107). -/
theorem ByteReading.row_of_isErr (hr : ByteReading h ⟨st, empty⟩ b i) (hempty : buf.isEmpty = empty)
    (herr : (decStep ⟨st, buf, cap⟩ b).2.isErr = true) :
    i ∈ [.decNLit h b, .decEEscEnd h, .decEEscEsc h, .decEBad h b] := by
  cases hr with
  | endFrame =>
    rw [decStep_normal_END_nonempty buf cap (List.isEmpty_eq_false_iff.1 hempty)] at herr
    cases herr
  | endEmpty =>
    obtain rfl := List.isEmpty_iff.1 hempty
    cases herr
  | esc _ => cases herr
  | literal _ _ _ | escEnd _ | escEsc _ | bad _ _ _ => simp
  | recoveryEnd _ => cases herr
  | skip _ hE =>
    rw [decStep_recovery_skip buf cap hE] at herr
    cases herr

end

/-- Every step of a decoder is one of the transitions that its rows make. -/
theorem decStep_transition (d : Decoder) (b : Byte) : DecTransition d (decStep d b) :=
  (decodeByte_reading d.view 0 b).transition rfl

/-- An append reports an error exactly when it enters `ErrorRecovery` (R104 to R106). -/
theorem tryAppend_isErr_iff (d : Decoder) (v : Byte) :
    (tryAppend d v).2.isErr = true ↔ (tryAppend d v).1.state = .errorRecovery := by
  by_cases hfull : d.cap = some d.buf.length
  · simp [tryAppend_full hfull, DecOutcome.isErr]
  · simp [tryAppend_room hfull, DecOutcome.isErr]

/-- A transition reports an error exactly when it enters `ErrorRecovery`. -/
theorem DecTransition.isErr_iff {d : Decoder} {r : Decoder × DecOutcome} (hr : DecTransition d r) :
    r.2.isErr = true ↔ (d.state ≠ .errorRecovery ∧ r.1.state = .errorRecovery) := by
  cases hr with
  | delivered _ _ => simp [deliver, DecOutcome.isErr]
  | unchanged _ => simp [DecOutcome.isErr]
  | escaped _ => simp [DecOutcome.isErr]
  | appended v hst =>
    have hne : d.state ≠ .errorRecovery := by rcases hst with hst | hst <;> simp [hst]
    rw [tryAppend_isErr_iff, and_iff_right hne]
  | violated hst => simp [raiseError, hst, DecOutcome.isErr]
  | recovered _ => simp [recover, DecOutcome.isErr]

/-- Over any bytes the errors reported are as many as the entries into `ErrorRecovery`. -/
theorem length_errors_decRun (bytes : List Byte) (d : Decoder) :
    ((decRun bytes d).1.filter DecOutcome.isErr).length = recoveryEntries bytes d := by
  induction bytes generalizing d with
  | nil => rfl
  | cons b bs ih =>
    have hfirst := (decStep_transition d b).isErr_iff
    rw [decRun_cons, recoveryEntries, ← ih]
    by_cases herr : (decStep d b).2.isErr = true
    · rw [List.filter_cons_of_pos herr, if_pos (hfirst.1 herr), List.length_cons, Nat.add_comm]
    · rw [List.filter_cons_of_neg herr, if_neg (mt hfirst.2 herr), Nat.zero_add]

/-- Settles O39: the rows by the reading of the byte, the entry by the transition, and the count by induction on the bytes. -/
theorem errorsAreReportedOnce : Obligations.ErrorsAreReportedOnce :=
  ⟨fun d h b herr => (decodeByte_reading d.view h b).row_of_isErr rfl herr,
    fun d b => (decStep_transition d b).isErr_iff, length_errors_decRun⟩

/-- Over any bytes, what a decoder within its bound reports respects that bound, and no frame is empty (R115, R120). -/
theorem decRun_okFor {d : Decoder} (hd : d.bounded = true) (bytes : List Byte) :
    ∀ o ∈ (decRun bytes d).1, o.okFor d.cap = true := by
  induction bytes generalizing d with
  | nil => simp
  | cons b bs ih =>
    obtain ⟨hbounded, hok⟩ := (decStep_transition d b).keepsBound hd
    intro o ho
    rcases List.mem_cons.1 ho with rfl | ho
    · exact hok
    · exact decStep_cap d b ▸ ih hbounded o ho

/-- Settles O57: a frame that respects the bound 0 would be empty. -/
theorem deliveredFramesFitTheBound : Obligations.DeliveredFramesFitTheBound := by
  refine ⟨fun d b f hd hf => ?_, fun bytes d hd hcap => ?_⟩
  · have hok := ((decStep_transition d b).keepsBound hd).2
    obtain ⟨hne, hfits⟩ := (okFor_frame_iff d.cap f).1 (hf ▸ hok)
    exact ⟨List.length_pos_iff.2 hne, hfits⟩
  · refine List.filterMap_eq_nil_iff.2 fun o ho => ?_
    have hok := decRun_okFor hd bytes o ho
    cases o with
    | frame f =>
      obtain ⟨hne, hfits⟩ := (okFor_frame_iff d.cap f).1 hok
      exact absurd (List.length_eq_zero_iff.1 (Nat.le_zero.1 (hfits 0 hcap))) hne
    | noFrame => rfl
    | err _ => rfl

/-- An append leaves the escape sequence, whether or not the byte fits (R105, R106). -/
theorem tryAppend_state_ne_escaping (d : Decoder) (v : Byte) : (tryAppend d v).1.state ≠ .escaping := by
  unfold tryAppend raiseError
  split <;> simp

/-- No transition stays in `Escaping`. -/
theorem DecTransition.leaves_escaping {d : Decoder} {r : Decoder × DecOutcome} (hr : DecTransition d r)
    (hd : d.state = .escaping) : r.1.state ≠ .escaping := by
  cases hr with
  | delivered hst _ => simp [hst] at hd
  | unchanged hst => rcases hst with ⟨hst, -⟩ | hst <;> simp [hst] at hd
  | escaped hst => simp [hst] at hd
  | appended v _ => exact tryAppend_state_ne_escaping d v
  | violated _ => simp [raiseError]
  | recovered _ => simp [recover]

/-- Wherever a decoder stands, two delimiters take it to `Normal`: the first may break an escape sequence, and the second
then ends the recovery. -/
theorem decRun_END_END_state (d : Decoder) : (decRun [Token.END, Token.END] d).2.state = .normal := by
  obtain ⟨st, buf, cap⟩ := d
  cases st with
  | normal => cases buf <;> rfl
  | escaping => rfl
  | errorRecovery => rfl

/-- Settles O58: a byte is always executed, and two delimiters reach `Normal` from everywhere. -/
theorem decoderIsTotalAndNeverStuck : Obligations.DecoderIsTotalAndNeverStuck := by
  refine ⟨fun s h b d hd => by rw [react_byte hd]; rfl, ?_,
    fun d b hd => (decStep_transition d b).leaves_escaping hd, fun d => ⟨_, decRun_END_END_state d⟩⟩
  rintro ⟨_, buf, cap⟩ rfl
  rfl

end Sys2Proof.Machine

/-! ### `Decode` and `DecodeAll` over the byte steps (R110, R111) -/

namespace Sys2Proof.Machine

/-! #### The call `Decode` -/

/-- A byte that reports nothing is consumed, and the call goes on. -/
theorem decodeCall_silent {d : Decoder} {b : Byte} (hb : (decStep d b).2 = .noFrame) (bs : List Byte) :
    decodeCall (b :: bs) d =
      { decodeCall bs (decStep d b).1 with consumed := (decodeCall bs (decStep d b).1).consumed + 1 } := by
  rw [decodeCall, if_pos hb]

/-- A byte that reports something ends the call. -/
theorem decodeCall_reported {d : Decoder} {b : Byte} (hb : (decStep d b).2 ≠ .noFrame) (bs : List Byte) :
    decodeCall (b :: bs) d = ⟨(decStep d b).2, 1, (decStep d b).1⟩ := by
  rw [decodeCall, if_neg hb]

/-- How a call on `chunk` ends: it consumes the whole chunk and reports nothing, or it stops behind the first byte that
reports something and reports that. -/
inductive CallStops (chunk : List Byte) (d : Decoder) : CallResult → Prop where
  | silent {d' : Decoder} (hrun : decRun chunk d = (List.replicate chunk.length .noFrame, d')) :
      CallStops chunk d ⟨.noFrame, chunk.length, d'⟩
  | reported {n : Nat} {o : DecOutcome} {d' : Decoder} (hn : n < chunk.length) (ho : o ≠ .noFrame)
      (hrun : decRun (chunk.take (n + 1)) d = (List.replicate n .noFrame ++ [o], d')) :
      CallStops chunk d ⟨o, n + 1, d'⟩

/-- A byte that reports nothing, before a call on the rest. -/
theorem CallStops.cons {b : Byte} {bs : List Byte} {d : Decoder} {c : CallResult} (hb : (decStep d b).2 = .noFrame)
    (hc : CallStops bs (decStep d b).1 c) : CallStops (b :: bs) d { c with consumed := c.consumed + 1 } := by
  cases hc with
  | silent hrun => exact .silent (by rw [decRun_cons, hb, hrun, List.length_cons, List.replicate_succ])
  | reported hn ho hrun =>
    refine .reported (Nat.succ_lt_succ hn) ho ?_
    rw [List.take_succ_cons, decRun_cons, hb, hrun, List.replicate_succ, List.cons_append]

/-- Every call ends in one of the two ways. -/
theorem decodeCall_stops (chunk : List Byte) (d : Decoder) : CallStops chunk d (decodeCall chunk d) := by
  induction chunk generalizing d with
  | nil => exact .silent rfl
  | cons b bs ih =>
    by_cases hb : (decStep d b).2 = .noFrame
    · rw [decodeCall_silent hb]
      exact (ih _).cons hb
    · rw [decodeCall_reported hb]
      exact .reported (n := 0) (Nat.succ_pos _) hb rfl

/-- Settles O49: by the two ways a call ends. -/
theorem decodeCallReportsAtMostOnce : Obligations.DecodeCallReportsAtMostOnce := by
  intro chunk d
  have hstops := decodeCall_stops chunk d
  generalize decodeCall chunk d = c at hstops
  cases hstops with
  | silent hrun =>
    have hnone : ∀ o ∈ (decRun chunk d).1, o = .noFrame := by
      rw [hrun]
      exact fun o ho => List.eq_of_mem_replicate ho
    exact ⟨Nat.le_refl _, by simp [hrun], fun _ => ⟨rfl, hnone⟩, fun ho => absurd rfl ho⟩
  | reported hn ho hrun =>
    exact ⟨hn, by rw [hrun], fun hnone => absurd hnone ho, fun _ => ⟨_, rfl, by rw [hrun]⟩⟩

/-! #### The call on the machine -/

/-- The latest outcome after a step is that step's. -/
theorem DecStepped.lastOutcome {h : Handle} {s t : State} {d : Decoder} {o : DecOutcome} (hs : DecStepped h s t d o) :
    t.lastOutcome h = o := by
  simp [State.lastOutcome, hs.decOuts]

/-- On the machine a byte that reports nothing is consumed, and the call goes on. -/
theorem callDecode_silent {s : State} {h : Handle} {d : Decoder} {b : Byte} (hd : s.dec? h = some d)
    (hb : (decStep d b).2 = .noFrame) (bs : List Byte) :
    callDecode h (b :: bs) s =
      (callDecode h bs (s.decStepped h (decStep d b))).map (fun r => ((r.1.1, r.1.2 + 1), r.2)) := by
  have hlast := (decStepped_spec hd (decStep d b)).lastOutcome.trans hb
  simp only [callDecode, react_byte hd, if_pos hlast]

/-- On the machine a byte that reports something ends the call. -/
theorem callDecode_reported {s : State} {h : Handle} {d : Decoder} {b : Byte} (hd : s.dec? h = some d)
    (hb : (decStep d b).2 ≠ .noFrame) (bs : List Byte) :
    callDecode h (b :: bs) s = some (((decStep d b).2, 1), s.decStepped h (decStep d b)) := by
  have hlast := (decStepped_spec hd (decStep d b)).lastOutcome
  simp only [callDecode, react_byte hd, hlast, if_neg hb]

/-- Settles O48: by induction on the chunk; the machine's call and the loop stop at the same byte. -/
theorem decodeCallRunsTheLoop : Obligations.DecodeCallRunsTheLoop := by
  intro s h chunk d hd
  induction chunk generalizing s d with
  | nil => exact ⟨s, rfl, hd, by simp, OnlyDec.refl h s⟩
  | cons b bs ih =>
    have hfirst := decStepped_spec hd (decStep d b)
    by_cases hb : (decStep d b).2 = .noFrame
    · obtain ⟨t, hcall, hdec, houts, honly⟩ := ih _ _ hfirst.dec?
      rw [decodeCall_silent hb, callDecode_silent hd hb, hcall]
      refine ⟨t, rfl, hdec, ?_, hfirst.2.trans honly⟩
      rw [houts, hfirst.decOuts, List.append_assoc]
      rfl
    · rw [decodeCall_reported hb, callDecode_reported hd hb]
      exact ⟨_, rfl, hfirst.dec?, hfirst.decOuts, hfirst.2⟩

/-! #### `DecodeAll` -/

/-- Steps without a report have none to collect. -/
@[simp] theorem reports_replicate_noFrame (n : Nat) : reports (List.replicate n .noFrame) = [] := by
  simp [reports]

/-- What a call reports is what the bytes it consumes report, and the decoder is where they lead. -/
theorem decRun_consumed (chunk : List Byte) (d : Decoder) :
    reports (decRun (chunk.take (decodeCall chunk d).consumed) d).1 = reports [(decodeCall chunk d).outcome] ∧
      (decRun (chunk.take (decodeCall chunk d).consumed) d).2 = (decodeCall chunk d).dec := by
  have hstops := decodeCall_stops chunk d
  generalize decodeCall chunk d = c at hstops
  cases hstops with
  | silent hrun => simp [hrun]
  | reported _ _ hrun => simp [hrun]

/-- A call on a chunk that is not empty consumes at least one byte. -/
theorem decodeCall_consumed_pos (b : Byte) (bs : List Byte) (d : Decoder) : 0 < (decodeCall (b :: bs) d).consumed := by
  have hstops := decodeCall_stops (b :: bs) d
  generalize decodeCall (b :: bs) d = c at hstops
  cases hstops with
  | silent _ => exact Nat.succ_pos _
  | reported _ _ _ => exact Nat.succ_pos _

/-- One call and then the loop on what it left: a call without a report adds nothing to what is collected. -/
theorem decodeLoop_cons (fuel : Nat) (b : Byte) (bs : List Byte) (d : Decoder) :
    decodeLoop (fuel + 1) (b :: bs) d =
      (reports [(decodeCall (b :: bs) d).outcome] ++
          (decodeLoop fuel ((b :: bs).drop (decodeCall (b :: bs) d).consumed) (decodeCall (b :: bs) d).dec).1,
        (decodeLoop fuel ((b :: bs).drop (decodeCall (b :: bs) d).consumed) (decodeCall (b :: bs) d).dec).2) := by
  simp only [decodeLoop]
  by_cases ho : (decodeCall (b :: bs) d).outcome = .noFrame
  · rw [if_pos ho, ho]
    rfl
  · rw [if_neg ho, reports_cons_of_ne ho]
    rfl

/-- With a call for each byte, the loop collects the reports of the byte steps and ends where they end. -/
theorem decodeLoop_eq {fuel : Nat} {bytes : List Byte} (hfuel : bytes.length ≤ fuel) (d : Decoder) :
    decodeLoop fuel bytes d = (reports (decRun bytes d).1, (decRun bytes d).2) := by
  induction fuel generalizing bytes d with
  | zero =>
    obtain rfl := List.length_eq_zero_iff.1 (Nat.le_zero.1 hfuel)
    rfl
  | succ fuel ih =>
    cases bytes with
    | nil => rfl
    | cons b bs =>
      obtain ⟨houts, hdec⟩ := decRun_consumed (b :: bs) d
      have hpos := decodeCall_consumed_pos b bs d
      have hcut := decRun_append ((b :: bs).take (decodeCall (b :: bs) d).consumed)
        ((b :: bs).drop (decodeCall (b :: bs) d).consumed) d
      have hleft : ((b :: bs).drop (decodeCall (b :: bs) d).consumed).length ≤ fuel := by
        rw [List.length_drop]
        omega
      rw [List.take_append_drop, hdec] at hcut
      rw [decodeLoop_cons, ih hleft, hcut, reports_append, houts]

/-- `DecodeAll` over the byte steps (R111). -/
theorem decodeAll_eq (bytes : List Byte) (d : Decoder) :
    decodeAll bytes d = (reports (decRun bytes d).1, (decRun bytes d).2) :=
  decodeLoop_eq (Nat.le_refl _) d

/-- What is dropped as no report is no frame. -/
theorem frames_reports (outs : List DecOutcome) : frames (reports outs) = frames outs := by
  rw [frames, reports, List.filterMap_filter, frames]
  congr 1
  funext o
  cases o <;> rfl

/-- Settles O50: the loop of `DecodeAll` against the byte steps. -/
theorem decodeAllCollectsTheReports : Obligations.DecodeAllCollectsTheReports := by
  intro bytes d
  rw [decodeAll_eq]
  exact ⟨rfl, frames_reports _⟩

/-- Decoding is carried from one piece to the next. -/
theorem decodeAll_append (xs ys : List Byte) (d : Decoder) :
    decodeAll (xs ++ ys) d =
      ((decodeAll xs d).1 ++ (decodeAll ys (decodeAll xs d).2).1, (decodeAll ys (decodeAll xs d).2).2) := by
  simp only [decodeAll_eq, decRun_append, reports_append]

/-- Settles O51: by induction on the chunks, each boundary being a cut of the byte sequence. -/
theorem chunkBoundariesAreNoEvents : Obligations.ChunkBoundariesAreNoEvents := by
  intro chunks d
  induction chunks generalizing d with
  | nil => rfl
  | cons c cs ih => rw [List.flatten_cons, decodeAll_append, decodeChunks, ih]

end Sys2Proof.Machine

/-! ### Decoding wire frames (R115 to R119, R124) -/

namespace Sys2Proof.Machine

/-! #### The pieces of a wire frame -/

/-- Pieces whose decodings are known, one behind the other. -/
theorem decodeAll_append_of {xs ys : List Byte} {d d' d'' : Decoder} {os os' : List DecOutcome}
    (hx : decodeAll xs d = (os, d')) (hy : decodeAll ys d' = (os', d'')) :
    decodeAll (xs ++ ys) d = (os ++ os', d'') := by
  rw [decodeAll_append, hx, hy]

/-- What a delimiter reports where `f` is accumulated: the frame, unless it is empty (R101, R102). -/
def delivery (f : List Byte) : List DecOutcome := if f = [] then [] else [.frame f]

theorem delivery_of_ne_nil {f : List Byte} (hf : f ≠ []) : delivery f = [.frame f] := if_neg hf

theorem encodeFrame_true (f : List Byte) : encodeFrame true f = [Token.END] ++ encodeFrame false f := rfl

theorem encodeFrame_lead (lead : Bool) (f : List Byte) : encodeFrame lead f = leadBytes lead ++ encodeFrame false f :=
  List.append_assoc _ _ _

theorem encodeFrames_cons (lead : Bool) (f : List Byte) (fs : List (Bool × List Byte)) :
    encodeFrames ((lead, f) :: fs) = encodeFrame lead f ++ encodeFrames fs := rfl

/-- An empty payload fits any bound. -/
theorem fitsBound_zero (cap : Option Nat) : FitsBound cap 0 := fun c _ => Nat.zero_le c

/-- A payload just reaches a bound of its own length. -/
theorem fitsBound_length (g : List Byte) : FitsBound (some g.length) g.length := fun _ hc => (Option.some.inj hc).le

section
variable (buf : List Byte) (cap : Option Nat)

theorem decodeAll_END : decodeAll [Token.END] ⟨.normal, buf, cap⟩ = (delivery buf, ⟨.normal, [], cap⟩) := by
  cases buf <;> rfl

theorem decodeAll_recovery_END : decodeAll [Token.END] ⟨.errorRecovery, buf, cap⟩ = ([], ⟨.normal, [], cap⟩) := rfl

/-- A leading delimiter, if any, is ignored where nothing is accumulated (R102). -/
theorem decodeAll_leadBytes (lead : Bool) :
    decodeAll (leadBytes lead) ⟨.normal, [], cap⟩ = ([], ⟨.normal, [], cap⟩) := by
  cases lead <;> rfl

/-- In recovery everything up to the next delimiter is skipped, and the delimiter is not a frame's (R108, R109). -/
theorem decodeAll_recovery {bs : List Byte} (hbs : Token.END ∉ bs) :
    decodeAll (bs ++ [Token.END]) ⟨.errorRecovery, buf, cap⟩ = ([], ⟨.normal, [], cap⟩) := by
  obtain ⟨houts, hdec⟩ := decRun_recovery hbs buf cap
  have hskip : decodeAll bs ⟨.errorRecovery, buf, cap⟩ = ([], ⟨.errorRecovery, buf, cap⟩) := by
    rw [decodeAll_eq, houts, hdec]
  exact decodeAll_append_of hskip (decodeAll_recovery_END buf cap)

end

section
variable {f buf : List Byte} {cap : Option Nat}

/-- A stuffed payload that fits is accumulated behind what is there. -/
theorem decodeAll_body (hc : FitsBound cap (buf ++ f).length) :
    decodeAll (f.flatMap encByte) ⟨.normal, buf, cap⟩ = ([], ⟨.normal, buf ++ f, cap⟩) := by
  rw [List.length_append] at hc
  obtain ⟨houts, hdec⟩ := decRun_body hc
  rw [decodeAll_eq, houts, hdec]

/-- A frame without a leading delimiter is joined to what is accumulated. -/
theorem decodeAll_joined (hc : FitsBound cap (buf ++ f).length) :
    decodeAll (encodeFrame false f) ⟨.normal, buf, cap⟩ = (delivery (buf ++ f), ⟨.normal, [], cap⟩) :=
  decodeAll_append_of (decodeAll_body hc) (decodeAll_END _ cap)

/-- A frame that fits is delivered whole and alone where nothing is accumulated, and leaves nothing behind (R116). -/
theorem decodeAll_encodeFrame (hc : FitsBound cap f.length) (lead : Bool) :
    decodeAll (encodeFrame lead f) ⟨.normal, [], cap⟩ = (delivery f, ⟨.normal, [], cap⟩) := by
  rw [encodeFrame_lead]
  exact decodeAll_append_of (decodeAll_leadBytes cap lead) (decodeAll_joined hc)

end

/-- A delivered frame is not empty: only the row that asks for a buffer that is not empty delivers. -/
theorem DecTransition.frame_ne_nil {d : Decoder} {r : Decoder × DecOutcome} {f : List Byte} (hr : DecTransition d r)
    (hf : r.2 = .frame f) : f ≠ [] := by
  cases hr with
  | delivered _ hb =>
    obtain rfl := DecOutcome.frame.inj hf
    exact hb
  | appended v _ => exact ((okFor_frame_iff none f).1 (hf ▸ tryAppend_okFor d v none)).1
  | unchanged _ | escaped _ | violated _ | recovered _ => cases hf

/-- Settles O53: a frame is delivered by one row only, and an empty payload leaves it nothing to deliver. -/
theorem emptyFramesAreNeverDelivered : Obligations.EmptyFramesAreNeverDelivered :=
  ⟨fun d b hf => (decStep_transition d b).frame_ne_nil hf rfl,
    fun lead cap => decodeAll_encodeFrame (f := []) (fitsBound_zero cap) lead⟩

/-- Settles O54: the leading delimiter is ignored, the payload accumulated, and the trailing delimiter delivers it. -/
theorem roundTripOfAFrame : Obligations.RoundTripOfAFrame := by
  rintro lead f ⟨_, _, cap⟩ rfl rfl hc
  exact decodeAll_encodeFrame hc lead

/-- Settles O55: the bytes without END are skipped, and the END ends the recovery. -/
theorem resynchronisesAtTheNextEnd : Obligations.ResynchronisesAtTheNextEnd := by
  rintro ⟨_, buf, cap⟩ bytes rfl hbytes
  exact decodeAll_recovery buf cap hbytes

/-! #### A frame that is too long (R119) -/

/-- The wire bytes of a payload byte before their last one report nothing: there are none, or ESC alone. -/
theorem decodeAll_encByte_dropLast (x : Byte) (buf : List Byte) (cap : Option Nat) :
    (decodeAll (encByte x).dropLast ⟨.normal, buf, cap⟩).1 = [] := by
  by_cases hE : x = Token.END
  · subst hE
    rfl
  · by_cases hS : x = Token.ESC
    · subst hS
      rfl
    · rw [encByte_other hE hS]
      rfl

/-- The wire bytes of a payload byte raise `OversizedPacket` where the buffer is full (R142). -/
theorem decodeAll_encByte_full (x : Byte) (buf : List Byte) :
    decodeAll (encByte x) ⟨.normal, buf, some buf.length⟩ =
      ([.err .oversizedPacket], ⟨.errorRecovery, buf, some buf.length⟩) := by
  obtain ⟨houts, hdec⟩ := decRun_encByte_full (buf := buf) x
  rw [decodeAll_eq, houts, hdec]

/-- The start of a wire frame, as far as its payload fits the bound, reports nothing. -/
theorem decodeAll_opening {f : List Byte} {cap : Option Nat} (hc : FitsBound cap f.length) (lead : Bool) :
    decodeAll (leadBytes lead ++ f.flatMap encByte) ⟨.normal, [], cap⟩ = ([], ⟨.normal, f, cap⟩) :=
  decodeAll_append_of (decodeAll_leadBytes cap lead) (decodeAll_body (buf := []) hc)

/-- Payload `g` fills the buffer; the next payload byte `x` is one too many, and the rest `r` is skipped (R119). -/
theorem decodeAll_oversized (lead : Bool) (g : List Byte) (x : Byte) (r : List Byte) :
    decodeAll (encodeFrame lead (g ++ x :: r)) ⟨.normal, [], some g.length⟩ =
      ([.err .oversizedPacket], ⟨.normal, [], some g.length⟩) := by
  have hwire : encodeFrame lead (g ++ x :: r) =
      leadBytes lead ++ g.flatMap encByte ++ (encByte x ++ (r.flatMap encByte ++ [Token.END])) := by
    simp [encodeFrame]
  rw [hwire]
  exact decodeAll_append_of (decodeAll_opening (fitsBound_length g) lead)
    (decodeAll_append_of (decodeAll_encByte_full x g) (decodeAll_recovery g _ (END_not_mem_body r)))

/-- A list is cut at one of its elements. -/
theorem exists_append_cons_of_getElem? {f : List Byte} {c : Nat} {x : Byte} (hx : f[c]? = some x) :
    ∃ g r, f = g ++ x :: r ∧ g.length = c := by
  obtain ⟨hlt, hget⟩ := List.getElem?_eq_some_iff.1 hx
  refine ⟨f.take c, f.drop (c + 1), ?_, List.length_take_of_le hlt.le⟩
  rw [← hget, List.getElem_cons_drop, List.take_append_drop]

/-- Settles O56: the payload up to the bound fills the buffer and reports nothing, the next payload byte raises the error,
and the trailing END ends the recovery. -/
theorem oversizedFrameIsDroppedWhole : Obligations.OversizedFrameIsDroppedWhole := by
  rintro lead f x ⟨_, _, _⟩ c rfl rfl rfl hx
  obtain ⟨g, r, rfl, rfl⟩ := exists_append_cons_of_getElem? hx
  have hopening := decodeAll_opening (fitsBound_length g) lead
  refine ⟨decodeAll_oversized lead g x r, ?_, ?_⟩
  · rw [List.take_left]
    exact congrArg Prod.fst
      (decodeAll_append_of hopening (Prod.ext (decodeAll_encByte_dropLast x g (some g.length)) rfl))
  · have hfirst : ((g ++ x :: r).take (g.length + 1)).flatMap encByte = g.flatMap encByte ++ encByte x := by
      simp [List.take_length_add_append]
    rw [hfirst, ← List.append_assoc]
    exact congrArg Prod.fst (decodeAll_append_of hopening (decodeAll_encByte_full x g))

/-! #### Frames sent one after another (R124) -/

/-- What is owed for a first frame comes before what is owed for the others. -/
theorem owedReports_cons (lead : Bool) (f : List Byte) (fs : List (Bool × List Byte)) :
    owedReports ((lead, f) :: fs) = delivery f ++ owedReports fs := by
  by_cases hf : f = []
  · simp [owedReports, delivery, hf]
  · simp [owedReports, delivery, hf]

/-- Frames that fit, sent one after another, are delivered in order, the empty ones left out. -/
theorem decodeAll_encodeFrames {fs : List (Bool × List Byte)} {cap : Option Nat}
    (hfs : ∀ x ∈ fs, FitsBound cap x.2.length) :
    decodeAll (encodeFrames fs) ⟨.normal, [], cap⟩ = (owedReports fs, ⟨.normal, [], cap⟩) := by
  induction fs with
  | nil => rfl
  | cons x fs ih =>
    obtain ⟨lead, f⟩ := x
    obtain ⟨hf, hrest⟩ := List.forall_mem_cons.1 hfs
    rw [encodeFrames_cons, owedReports_cons]
    exact decodeAll_append_of (decodeAll_encodeFrame hf lead) (ih hrest)

/-- Settles O59: whatever is accumulated when the frames begin, the first delimiter settles it: a leading END flushes it, a
trailing one delivers it with the frame's own bytes, and either ends a recovery. -/
theorem streamOfFramesIsDelivered : Obligations.StreamOfFramesIsDelivered := by
  intro fs cap hfs
  have hstream := decodeAll_encodeFrames hfs
  have hled : ∀ f, FitsBound cap f.length → decodeAll (encodeFrame false f ++ encodeFrames fs) ⟨.normal, [], cap⟩ =
      (owedReports ((true, f) :: fs), ⟨.normal, [], cap⟩) := by
    intro f hf
    rw [owedReports_cons]
    exact decodeAll_append_of (decodeAll_encodeFrame hf false) hstream
  refine ⟨hstream, fun g f hg hf => ?_, fun g f hg hf => ?_, fun g f hf => ?_, fun g f => ?_⟩
  · rw [encodeFrames_cons, encodeFrame_true, List.append_assoc]
    have hflush := decodeAll_END g cap
    rw [delivery_of_ne_nil hg] at hflush
    exact decodeAll_append_of hflush (hled f hf)
  · rw [encodeFrames_cons]
    have hjoined := decodeAll_joined hf
    rw [delivery_of_ne_nil (List.append_ne_nil_of_left_ne_nil hg f)] at hjoined
    exact decodeAll_append_of hjoined hstream
  · rw [encodeFrames_cons, encodeFrame_true, List.append_assoc]
    exact decodeAll_append_of (decodeAll_recovery_END g cap) (hled f hf)
  · rw [encodeFrames_cons]
    exact decodeAll_append_of (decodeAll_recovery g cap (END_not_mem_body f)) hstream

/-! #### From an encoder of the machine to a decoder of it -/

/-- Settles O60: the call writes the wire frame and leaves every decoder alone; its bytes, pending for the decoder, are run
one by one, and what they report is what decoding the wire frame reports. -/
theorem loopbackDeliversTheFrame : Obligations.LoopbackDeliversTheFrame := by
  intro s k h lead cap f hf hc he hsink hd
  obtain ⟨t, _, hcall, hran⟩ := callEncode_written f he hsink
  have hd' : t.dec? h = some ⟨.normal, [], cap⟩ := by rw [State.dec?, hran.only.decs]; exact hd
  have houts' : t.decOuts h = s.decOuts h := by rw [State.decOuts, hran.only.decs]; rfl
  obtain ⟨u, hsteps, hdec, houts, hinput, honly⟩ := pendingBytesAreConsumedInOrder
    { t with input := byteEvents h (encodeFrame lead f) ++ t.input } h (encodeFrame lead f) t.input _ hd' rfl
  obtain ⟨hreports, hend⟩ := Prod.mk.inj
    ((decodeAll_eq (encodeFrame lead f) _).symm.trans (decodeAll_encodeFrame hc lead))
  refine ⟨t, u, encodeFrame lead f, hcall, hran.tx, hsteps, ?_, hdec.trans (congrArg some hend), ?_, ?_,
    hinput.trans hran.only.input⟩
  · rw [houts, decOuts_withInput, houts', reports_append, hreports, delivery_of_ne_nil hf]
  · rw [State.enc?, honly.encs]; exact hran.enc
  · rw [State.tx, honly.encs]; rfl

end Sys2Proof.Machine

/-! ### The host's operations, and what is left of a context they end (R130 to R134) -/

namespace Sys2Proof.Machine

/-! #### Ports and their contexts -/

theorem dec?_of_port {s : State} {h : Handle} {p : DecPort} (hp : s.decs[h]? = some p) : s.dec? h = p.ctx := by
  simp [State.dec?, hp]

theorem enc?_of_port {s : State} {h : Handle} {p : EncPort} (hp : s.encs[h]? = some p) : s.enc? h = p.ctx := by
  simp [State.enc?, hp]

/-- Where only the context of a decoder's port is replaced, its record stays with the host. -/
theorem port_updDec_ctx {s : State} {h : Handle} {d : Decoder} (hd : s.dec? h = some d) (c : Option Decoder) :
    (s.updDec h (fun p => { p with ctx := c })).decs[h]? = some { ctx := c, outs := s.decOuts h } := by
  obtain ⟨p, hp, -⟩ := dec?_eq_some.1 hd
  have houts : s.decOuts h = p.outs := by simp [State.decOuts, hp]
  rw [updDec_port_self hp, houts]

/-- A decoder's port added behind the others has the next handle (log entry 2). -/
theorem dec?_append_self (s : State) (p : DecPort) :
    State.dec? { s with decs := s.decs ++ [p] } s.decs.length = p.ctx :=
  dec?_of_port List.getElem?_concat_length

/-! #### An event of a context that does not exist -/

/-- The machine has no context `c`: it was never constructed, or it was dropped. -/
def State.Lacks (s : State) : Ctx → Prop
  | .dec h => s.dec? h = none
  | .enc h => s.enc? h = none

theorem decRow_absent {h : Handle} {s : State} (hs : s.Lacks (.dec h)) (i : Instr) (tr : Decoder → Decoder × DecOutcome) :
    decRow i h tr s = .refused .noSuchContext := by
  have hd : s.dec? h = none := hs
  simp only [decRow, hd]

theorem encRow_absent {h : Handle} {s : State} (hs : s.Lacks (.enc h)) (i : Instr) (pre : Phase)
    (bytes : Encoder → List Byte) (post : Phase) : encRow i h pre bytes post s = .refused .noSuchContext := by
  have he : s.enc? h = none := hs
  simp only [encRow, he]

theorem execDecReset_absent {h : Handle} {s : State} (hs : s.Lacks (.dec h)) :
    execDecReset h s = .refused .noSuchContext := by
  have hd : s.dec? h = none := hs
  simp only [execDecReset, hd]

theorem execEncReset_absent {h : Handle} {s : State} (hs : s.Lacks (.enc h)) :
    execEncReset h s = .refused .noSuchContext := by
  have he : s.enc? h = none := hs
  simp only [execEncReset, he]

theorem execDrop_absent {c : Ctx} {s : State} (hs : s.Lacks c) : execDrop c s = .refused .noSuchContext := by
  cases c with
  | dec h =>
    have hd : s.dec? h = none := hs
    simp only [execDrop, hd]
  | enc h =>
    have he : s.enc? h = none := hs
    simp only [execDrop, he]

/-- An instruction looks for its context before anything else. -/
theorem exec_absent {i : Instr} {c : Ctx} {s : State} (hc : (encode i).target = some c) (hs : s.Lacks c) :
    exec i s = .refused .noSuchContext := by
  cases i with
  | decNEndF _ | decNEndE _ | decNEsc _ | decNLit _ _ | decEEscEnd _ | decEEscEsc _ | decEBad _ _ | decREnd _
  | decRSkip _ _ => cases hc; exact decRow_absent hs _ _
  | encStart _ | encDataEnd _ | encDataEsc _ | encDataLit _ _ | encFinish _ =>
    cases hc; exact encRow_absent hs _ _ _ _
  | decNew _ | encNew _ => cases hc
  | decReset _ => cases hc; exact execDecReset_absent hs
  | encReset _ => cases hc; exact execEncReset_absent hs
  | drop _ => cases hc; exact execDrop_absent hs

/-- Whatever row the event is read as, its context is not there. -/
theorem react_absent {e : Event} {c : Ctx} {s : State} (hc : e.target = some c) (hs : s.Lacks c) :
    react s e = .refused .noSuchContext :=
  exec_absent ((target_encode_decode _ e).trans hc) hs

theorem isNext_react_absent {e : Event} {c : Ctx} {s : State} (hc : e.target = some c) (hs : s.Lacks c) :
    isNext (react s e) = false := by
  rw [react_absent hc hs]
  rfl

/-- Settles O27: an event is read as a row of the context it names, and every row looks for its context first. -/
theorem absentContextIsRefused : Obligations.AbsentContextIsRefused :=
  ⟨fun _ _ _ hc hs => react_absent hc hs, fun _ _ _ hc hs => react_absent hc hs⟩

/-! #### A dropped context -/

/-- From `s` to `t` every port without a context stays as it is, its stream and record included. -/
structure KeepsDropped (s t : State) : Prop where
  decs : ∀ (h : Handle) (p : DecPort), s.decs[h]? = some p → p.ctx = none → t.decs[h]? = some p
  encs : ∀ (h : Handle) (p : EncPort), s.encs[h]? = some p → p.ctx = none → t.encs[h]? = some p

/-- An update of the port of a decoder that exists is no update of a port without a context. -/
theorem keepsDropped_updDec {s : State} {h : Handle} {d : Decoder} (hd : s.dec? h = some d) (f : DecPort → DecPort) :
    KeepsDropped s (s.updDec h f) where
  encs _ _ hp _ := hp
  decs k p hp hc := by
    have hk : k ≠ h := by
      rintro rfl
      rw [dec?_of_port hp, hc] at hd
      cases hd
    rw [updDec_port_other s h hk, hp]

theorem keepsDropped_updEnc {s : State} {h : Handle} {e : Encoder} (he : s.enc? h = some e) (f : EncPort → EncPort) :
    KeepsDropped s (s.updEnc h f) where
  decs _ _ hp _ := hp
  encs k p hp hc := by
    have hk : k ≠ h := by
      rintro rfl
      rw [enc?_of_port hp, hc] at he
      cases he
    rw [updEnc_port_other s h hk, hp]

/-- A new decoder takes the next handle, never one of a dropped context (log entry 2). -/
theorem keepsDropped_decNew (s : State) (ps : List DecPort) : KeepsDropped s { s with decs := s.decs ++ ps } where
  encs _ _ hp _ := hp
  decs _ _ hp _ := (List.getElem?_append_left (List.getElem?_eq_some_iff.1 hp).1).trans hp

theorem keepsDropped_encNew (s : State) (ps : List EncPort) : KeepsDropped s { s with encs := s.encs ++ ps } where
  decs _ _ hp _ := hp
  encs _ _ hp _ := (List.getElem?_append_left (List.getElem?_eq_some_iff.1 hp).1).trans hp

/-- Whatever an instruction does, it does to a context that exists, or behind every port there is. -/
theorem ExecEffect.keepsDropped {s t : State} (hx : ExecEffect s t) : KeepsDropped s t := by
  cases hx with
  | decoder _ _ _ hd _ | decReset _ _ hd | decDrop _ _ hd => exact keepsDropped_updDec hd _
  | encoder _ _ _ _ he _ | encReset _ _ he | encDrop _ _ he => exact keepsDropped_updEnc he _
  | decNew _ => exact keepsDropped_decNew s _
  | encNew _ => exact keepsDropped_encNew s _

/-- Settles O36: every effect that `exec` can have leaves a port without a context alone, and the pending events are no
part of a port. -/
theorem droppedContextStaysDropped : Obligations.DroppedContextStaysDropped := by
  intro s t hx
  obtain ⟨-, rfl⟩ | ⟨_, _, -, hx⟩ := step_effect hx
  · exact ⟨fun _ _ hp _ => hp, fun _ _ hp _ => hp⟩
  · exact ⟨hx.keepsDropped.decs, hx.keepsDropped.encs⟩

/-! #### What each operation does -/

/-- Settles O22: the arm of DEC.NEW adds one port and touches nothing else. -/
theorem decNewConstructsAFreshDecoder : Obligations.DecNewConstructsAFreshDecoder :=
  fun _ _ => ⟨_, rfl, rfl, rfl, rfl, rfl⟩

/-- Settles O23: the arm of ENC.NEW adds one port and touches nothing else. -/
theorem encNewConstructsAFreshEncoder : Obligations.EncNewConstructsAFreshEncoder :=
  fun _ _ => ⟨_, rfl, ⟨_, rfl⟩, rfl, rfl, rfl⟩

/-- Settles O24: the reset replaces the context by a fresh one with its bound, which is the context that DEC.NEW puts behind
the dropped port and the others. -/
theorem decResetKeepsTheBoundOnly : Obligations.DecResetKeepsTheBoundOnly := by
  intro s h d hd
  have hreset := port_updDec_ctx hd (some (freshDecoder d.cap))
  refine ⟨_, execDecReset_next hd, hreset, onlyDec_updDec s h _, _, _, execDrop_dec_next hd, rfl, ?_⟩
  rw [dec?_of_port hreset, ← (onlyDec_updDec s h (fun p => { p with ctx := none })).count]
  exact dec?_append_self _ _

/-- Settles O25: the reset replaces the context of the port and keeps the stream, the record and the count of draws. -/
theorem encResetEmitsNothing : Obligations.EncResetEmitsNothing := by
  intro s h e p hp hc
  have he : s.enc? h = some e := enc?_eq_some.2 ⟨p, hp, hc⟩
  exact ⟨_, execEncReset_next he, updEnc_port_self hp _, onlyEnc_updEnc s h _⟩

/-- Settles O26: DROP takes the context out of the port and keeps the rest, and an event of an absent context is refused. -/
theorem dropEndsTheContext : Obligations.DropEndsTheContext := by
  refine ⟨?_, ?_⟩
  · intro s h d hd
    have hport := port_updDec_ctx hd none
    exact ⟨_, execDrop_dec_next hd, hport, onlyDec_updDec s h _,
      fun _ htarget => isNext_react_absent htarget (dec?_of_port hport)⟩
  · intro s h e p hp hc
    have he : s.enc? h = some e := enc?_eq_some.2 ⟨p, hp, hc⟩
    have hport := updEnc_port_self hp (fun q => { q with ctx := none })
    exact ⟨_, execDrop_enc_next he, hport, onlyEnc_updEnc s h _,
      fun _ htarget => isNext_react_absent htarget (enc?_of_port hport)⟩

end Sys2Proof.Machine

/-! ### Errors and the frame of an event: what can report, what an error leaves, and which context changes (R140 to R160) -/

namespace Sys2Proof.Machine

/-! #### The causes of the errors (R141, R142) -/

/-- The only error an append reports is `OversizedPacket`, exactly where the buffer is full (R104 to R106). -/
theorem tryAppend_eq_err_iff (d : Decoder) (v : Byte) (e : DecError) :
    (tryAppend d v).2 = .err e ↔ e = .oversizedPacket ∧ d.cap = some d.buf.length := by
  by_cases hfull : d.cap = some d.buf.length
  · simp [tryAppend_full hfull, hfull, eq_comm]
  · simp [tryAppend_room hfull, hfull]

/-- Where decoder `d` reports error `e` at byte `b`: a byte that is no code, or one to be appended to a full buffer. -/
def ErrorCause (d : Decoder) (b : Byte) : DecError → Prop
  | .framingError => d.state = .escaping ∧ b ≠ Token.ESC_END ∧ b ≠ Token.ESC_ESC
  | .oversizedPacket =>
    d.cap = some d.buf.length ∧
      ((d.state = .normal ∧ b ≠ Token.END ∧ b ≠ Token.ESC) ∨
        (d.state = .escaping ∧ (b = Token.ESC_END ∨ b = Token.ESC_ESC)))

section
variable {h : Handle} {st : ParseState} {buf : List Byte} {cap : Option Nat} {empty : Bool} {b : Byte} {i : Instr}

/-- The row a byte is read as decides which error it can report: the three rows that append `OversizedPacket`, the row of a
bad code `FramingError`, the others none. -/
theorem ByteReading.err_iff (hr : ByteReading h ⟨st, empty⟩ b i) (hempty : buf.isEmpty = empty) (e : DecError) :
    (decStep ⟨st, buf, cap⟩ b).2 = .err e ↔ ErrorCause ⟨st, buf, cap⟩ b e := by
  cases hr with
  | endFrame =>
    rw [decStep_normal_END_nonempty buf cap (List.isEmpty_eq_false_iff.1 hempty)]
    cases e <;> simp [ErrorCause]
  | endEmpty =>
    obtain rfl := List.isEmpty_iff.1 hempty
    rw [decStep_normal_END_empty]
    cases e <;> simp [ErrorCause]
  | esc _ =>
    rw [decStep_normal_ESC]
    cases e <;> simp [ErrorCause]
  | literal _ hE hS =>
    rw [decStep_normal_literal buf cap hE hS, tryAppend_eq_err_iff]
    cases e <;> simp [ErrorCause, hE, hS]
  | escEnd _ =>
    rw [decStep_escaping_ESC_END, tryAppend_eq_err_iff]
    cases e <;> simp [ErrorCause]
  | escEsc _ =>
    rw [decStep_escaping_ESC_ESC, tryAppend_eq_err_iff]
    cases e <;> simp [ErrorCause]
  | bad _ hE hS =>
    rw [decStep_escaping_bad buf cap hE hS]
    cases e <;> simp [ErrorCause, hE, hS]
  | recoveryEnd _ =>
    rw [decStep_recovery_END]
    cases e <;> simp [ErrorCause]
  | skip _ hE =>
    rw [decStep_recovery_skip buf cap hE]
    cases e <;> simp [ErrorCause]

end

/-- A step reports an error exactly where its cause is met. -/
theorem decStep_err_iff (d : Decoder) (b : Byte) (e : DecError) : (decStep d b).2 = .err e ↔ ErrorCause d b e :=
  (decodeByte_reading d.view 0 b).err_iff rfl e

/-- Settles O40: the cause of `FramingError`, by the reading of the byte. -/
theorem framingErrorCause : Obligations.FramingErrorCause :=
  fun d b => decStep_err_iff d b .framingError

/-- Settles O41: the cause of `OversizedPacket`, by the reading of the byte; it asks for a bound that the length equals. -/
theorem oversizedPacketCause : Obligations.OversizedPacketCause := by
  intro d b
  have hcause := decStep_err_iff d b .oversizedPacket
  have hfull : (decStep d b).2 = .err .oversizedPacket → d.cap = some d.buf.length := fun herr => (hcause.1 herr).1
  refine ⟨hcause, fun hcap herr => ?_, fun hcap herr => ?_⟩
  · simpa [hcap] using hfull herr
  · simpa [hcap] using hfull herr

/-! #### Entry into recovery, and the return (R147, R148, R150) -/

/-- An append that reports an error changes the state only. -/
theorem tryAppend_fst_of_err {d : Decoder} {v : Byte} {e : DecError} (herr : (tryAppend d v).2 = .err e) :
    (tryAppend d v).1 = { d with state := .errorRecovery } := by
  rw [tryAppend_full ((tryAppend_eq_err_iff d v e).1 herr).2]

/-- A transition that reports an error enters recovery and keeps buffer and bound: only an append and a violation report one. -/
theorem DecTransition.fst_of_err {d : Decoder} {r : Decoder × DecOutcome} {e : DecError} (hr : DecTransition d r)
    (herr : r.2 = .err e) : r.1 = { d with state := .errorRecovery } := by
  cases hr with
  | appended v _ => exact tryAppend_fst_of_err herr
  | violated _ => rfl
  | delivered _ _ | unchanged _ | escaped _ | recovered _ => cases herr

/-- Settles O42: the entry by the transition, the return by the two rows of `ErrorRecovery`. -/
theorem recoveryEntryAndReturn : Obligations.RecoveryEntryAndReturn := by
  refine ⟨fun d b e herr => (decStep_transition d b).fst_of_err herr, ?_⟩
  rintro ⟨_, buf, cap⟩ b rfl
  by_cases hb : b = Token.END
  · subst hb
    simp [decStep_recovery_END]
  · simp [decStep_recovery_skip buf cap hb, hb]

/-! #### The frame of an event (R160) -/

/-- A decoder's reaction changes its own port only. -/
theorem react_onlyDec {s t : State} {e : Event} {h : Handle} (hc : e.target = some (.dec h)) (hx : react s e = .next t) :
    OnlyDec h s t := by
  obtain ⟨_, hg, hrun⟩ := react_local hc hx
  obtain rfl := Host.Outcome.next.inj ((hrun s (.refl s _)).symm.trans hx)
  cases hg with
  | dec _ f => exact onlyDec_updDec s h f

/-- An encoder's reaction changes its own port only. -/
theorem react_onlyEnc {s t : State} {e : Event} {h : Handle} (hc : e.target = some (.enc h)) (hx : react s e = .next t) :
    OnlyEnc h s t := by
  obtain ⟨_, hg, hrun⟩ := react_local hc hx
  obtain rfl := Host.Outcome.next.inj ((hrun s (.refl s _)).symm.trans hx)
  cases hg with
  | enc _ f => exact onlyEnc_updEnc s h f

/-- Settles O37: a reaction is one update of the port it names, and a construction adds a port behind the others. -/
theorem eventChangesItsContextOnly : Obligations.EventChangesItsContextOnly := by
  refine fun s t e hx => ⟨fun _ hc => react_onlyDec hc hx, fun _ hc => react_onlyEnc hc hx, fun hc => ?_⟩
  cases e with
  | decNew cap =>
    cases hx
    exact ⟨List.prefix_append _ _, List.prefix_refl _, rfl, rfl⟩
  | encNew lead =>
    cases hx
    exact ⟨List.prefix_refl _, List.prefix_append _ _, rfl, rfl⟩
  | byte _ _ | start _ | data _ _ | finish _ | decReset _ | encReset _ | drop _ => cases hc

end Sys2Proof.Machine

/-! ### The state after reset (R170) -/

namespace Sys2Proof.Machine

/-- No port exists yet, so the two invariants, which speak of every port, ask nothing. -/
theorem reset_inv : State.reset.Inv :=
  (State.inv_iff _).2 ⟨List.all_nil, List.all_nil⟩

theorem reset_streamsPaired : State.reset.StreamsPaired :=
  List.all_nil

/-- No handle names a context before its construction (R172; log entry 6). -/
theorem reset_lacks (c : Ctx) : State.reset.Lacks c := by
  cases c with
  | dec h => simp [State.Lacks, State.dec?, State.reset]
  | enc h => simp [State.Lacks, State.enc?, State.reset]

/-- Settles O32: after reset there is no port for an invariant to fail at, and no context for a handle to name. -/
theorem resetMeetsTheInvariants : Obligations.ResetMeetsTheInvariants :=
  ⟨reset_inv, reset_streamsPaired, rfl, rfl, fun h => reset_lacks (.dec h), fun h => reset_lacks (.enc h)⟩

end Sys2Proof.Machine
